-- ==== Sys2Proof/Word.lean ====
section
/-! DEFINITION. The value types of the MFX core: the 64-bit source, the 32-bit word, bytes, and the spec's strings. -/

namespace Sys2Proof

/-- A byte, as the control word of the model's decoder and a host's memory bytes are carried. -/
abbrev Byte := BitVec 8

/-- The word (the document's BitVector): bit 0 least significant, bit 31 most significant (R9, R21). -/
abbrev Word := BitVec 32

/-- The source number on the `src` port: 64 bits, unsigned (R8 `SRC_WIDTH`, R30). -/
abbrev Src := BitVec 64

/-- A string: a sequence of ASCII characters, equal character by character (R12). -/
abbrev Text := List Char

end Sys2Proof
end

