-- ==== Sys2Proof/Config.lean ====
section
/-! DEFINITION. What an implementation fixes at build time (R8, R232), and the named things the schemas are made of. The
free value `Config.heldOutputs` (R231) stands in Machine/State.lean, after the type of the output ports. -/

namespace Sys2Proof

/-- The J-type layout, an OPEN parameter of the block (R8, R75; 90_conflicts.md C1). -/
inductive JLayout where
  | split16
  | canonical26
  | literal42
  deriving DecidableEq, Repr

/-- HOST_BYTE_ORDER: how a host assembles a word from memory bytes. Outside the block; no rule reads it (R52). -/
inductive HostByteOrder where
  | big
  | little
  deriving DecidableEq, Repr

/-- The field names of the three formats (R33). -/
inductive FieldName where
  | op
  | rs
  | rt
  | rd
  | shamt
  | funct
  | offset
  | address
  deriving DecidableEq, Repr

/-- A FieldSchema: (field name, bit width) pairs, most significant field first (R14, R23). -/
abbrev Schema := List (FieldName × Nat)

/-- The register-name ROM: exactly 32 strings, index = register number (R24). An OPEN parameter of the block (R8). -/
abbrev RegNames := Vector Text 32

end Sys2Proof
end

