-- ==== Sys2Proof/Syntax.lean ====
section
/-! DEFINITION. The operations of spec/opcode_table.json, one constructor per row. -/

namespace Sys2Proof

/-- The source interpretation on the `mode` port (R30, R78). -/
inductive Mode where
  | binary
  | binaryLikeDecimal
  deriving DecidableEq, Repr

/-- The instruction format chosen by the caller (R22); `fmt = 11` is no format (R83). -/
inductive Format where
  | r
  | i
  | j
  deriving DecidableEq, Repr

/-- The block's operations (R82). The first six are selected by the control word `ctl = mode ++ fmt` (R78) and carry the
mode they were selected with; the two ingest rows and the three internal rows are the operations by themselves. -/
inductive Instr where
  /-- DECODE.R: the whole evaluation, `fmt = 00` (R171). -/
  | decodeR (mode : Mode)
  /-- DECODE.I: the whole evaluation, `fmt = 01` (R172). -/
  | decodeI (mode : Mode)
  /-- DECODE.J: the whole evaluation, `fmt = 10`, of a block built with `J_LAYOUT = SPLIT16` (R173). -/
  | decodeJ (mode : Mode)
  /-- DECODE.J.CANONICAL26: the same, `J_LAYOUT = CANONICAL26` (R173). -/
  | decodeJCanonical26 (mode : Mode)
  /-- DECODE.J.LITERAL42: the same, `J_LAYOUT = LITERAL42` (R173, R132). -/
  | decodeJLiteral42 (mode : Mode)
  /-- RESERVED.fmt11: the whole evaluation, `fmt = 11` (R83, R202). -/
  | reservedFmt11 (mode : Mode)
  /-- INGEST.binary: NumberToBits of `src` in binary mode (R100). -/
  | ingestBinary
  /-- INGEST.binaryLikeDecimal: NumberToBits of `src` in binary-like decimal mode (R101). -/
  | ingestBinaryLikeDecimal
  /-- BITS_TO_NUMBER of the 32-bit vector `b` (R102). -/
  | bitsToNumber (b : Word)
  /-- EXTRACT_FIELD: `width` bits of `b` from bit `lo` up (R130). -/
  | extractField (b : Word) (lo width : Nat)
  /-- RESOLVE_REG of a 26-bit number (R150; `RESOLVER_IN_WIDTH`, R8). -/
  | resolveReg (i : BitVec 26)
  deriving DecidableEq, Repr

end Sys2Proof
end

