-- ==== Sys2Proof/Machine/Tables.lean ====
section
/-! DEFINITION. The block's constant tables: the schema ROM (R73 to R76), the field-name codes and strings (R33), and the
default of the register-name ROM (R24). -/

namespace Sys2Proof.Machine

/-- The default of the parameter `J_LAYOUT` (R8, R75). -/
def defaultJLayout : JLayout := .split16

/-- The schema ROM, `SCHEMA(f)` (R76). -/
def schema : Format → JLayout → Schema
  | .r, _ => [(.op, 6), (.rs, 5), (.rt, 5), (.rd, 5), (.shamt, 5), (.funct, 6)]
  | .i, _ => [(.op, 6), (.rs, 5), (.rt, 5), (.offset, 16)]
  | .j, .split16 => [(.op, 6), (.rs, 5), (.rt, 5), (.address, 16)]
  | .j, .canonical26 => [(.op, 6), (.address, 26)]
  | .j, .literal42 => [(.op, 6), (.rs, 5), (.rt, 5), (.address, 26)]

/-- The sum of a schema's widths (R132). -/
def schemaSum : Schema → Nat
  | [] => 0
  | (_, width) :: rest => width + schemaSum rest

/-- The field-name code on `fname_k` (R33). -/
def fieldCode : FieldName → BitVec 4
  | .op => 0b0000
  | .rs => 0b0001
  | .rt => 0b0010
  | .rd => 0b0011
  | .shamt => 0b0100
  | .funct => 0b0101
  | .offset => 0b0110
  | .address => 0b0111

/-- The field-name string (R33). -/
def fieldText : FieldName → Text
  | .op => ['o', 'p']
  | .rs => ['r', 's']
  | .rt => ['r', 't']
  | .rd => ['r', 'd']
  | .shamt => ['s', 'h', 'a', 'm', 't']
  | .funct => ['f', 'u', 'n', 'c', 't']
  | .offset => ['o', 'f', 'f', 's', 'e', 't']
  | .address => ['a', 'd', 'd', 'r', 'e', 's', 's']

/-- The default of `REG_NAMES` (R24). Entries 0, 8, 14 and 31 are the source's; the others are the spec's default from
general knowledge (92 D5; log entry 8). -/
def defaultRegNames : RegNames := #v[
  ['$', 'z', 'e', 'r', 'o'], ['$', 'a', 't'], ['$', 'v', '0'], ['$', 'v', '1'],
  ['$', 'a', '0'], ['$', 'a', '1'], ['$', 'a', '2'], ['$', 'a', '3'],
  ['$', 't', '0'], ['$', 't', '1'], ['$', 't', '2'], ['$', 't', '3'],
  ['$', 't', '4'], ['$', 't', '5'], ['$', 't', '6'], ['$', 't', '7'],
  ['$', 's', '0'], ['$', 's', '1'], ['$', 's', '2'], ['$', 's', '3'],
  ['$', 's', '4'], ['$', 's', '5'], ['$', 's', '6'], ['$', 's', '7'],
  ['$', 't', '8'], ['$', 't', '9'], ['$', 'k', '0'], ['$', 'k', '1'],
  ['$', 'g', 'p'], ['$', 's', 'p'], ['$', 'f', 'p'], ['$', 'r', 'a']]

end Sys2Proof.Machine
end

