-- ==== Sys2Proof/WellFormed.lean ====
section
/-! DEFINITION. Which terms of Instr are operations the spec gives a meaning. -/

namespace Sys2Proof

/-- The precondition of ExtractField: `W >= 1` and `lo + W <= 32` (R130). -/
abbrev FieldRangeOk (lo width : Nat) : Prop := 1 ≤ width ∧ lo + width ≤ 32

/-- Every term is well formed but an extraction whose range is empty or leaves the word (R130; 93 U4). -/
def Instr.wellFormed : Instr → Bool
  | .extractField _ lo width => decide (FieldRangeOk lo width)
  | .decodeR _ => true
  | .decodeI _ => true
  | .decodeJ _ => true
  | .decodeJCanonical26 _ => true
  | .decodeJLiteral42 _ => true
  | .reservedFmt11 _ => true
  | .ingestBinary => true
  | .ingestBinaryLikeDecimal => true
  | .bitsToNumber _ => true
  | .resolveReg _ => true

end Sys2Proof
end

