-- ==== Sys2Proof/Decode.lean ====
section
/-! DEFINITION. The block's own encodings: the control word `ctl = mode ++ fmt` (R78), decoded to an operation and encoded
from one, and the instruction word as the concatenation of its fields (R72 to R76). -/

namespace Sys2Proof

/-- The `mode` bit (R78). -/
def modeBit : Mode → BitVec 1
  | .binary => 0
  | .binaryLikeDecimal => 1

/-- The mode of a `mode` bit; there is no reserved value (R83). -/
def modeOfBit (b : BitVec 1) : Mode := if b = 0 then .binary else .binaryLikeDecimal

/-- The `fmt` code (R78). -/
def formatCode : Format → BitVec 2
  | .r => 0b00
  | .i => 0b01
  | .j => 0b10

/-- The format of a `fmt` code; none for the reserved code 11 (R78, R83). -/
def formatOfCode (c : BitVec 2) : Option Format :=
  if c = 0b00 then some .r
  else if c = 0b01 then some .i
  else if c = 0b10 then some .j
  else none

/-- `ctl = mode ++ fmt`: `ctl[2]` is `mode`, `ctl[1:0]` is `fmt` (R78). -/
def controlWord (mode : BitVec 1) (fmt : BitVec 2) : BitVec 3 := mode ++ fmt

/-- The `mode` bit of a control word (R78). -/
def controlMode (ctl : BitVec 3) : BitVec 1 := ctl.extractLsb' 2 1

/-- The `fmt` code of a control word (R78). -/
def controlFmt (ctl : BitVec 3) : BitVec 2 := ctl.extractLsb' 0 2

/-- The DECODE.J row of a block built with the layout (R173). -/
def decodeJOf (mode : Mode) : JLayout → Instr
  | .split16 => .decodeJ mode
  | .canonical26 => .decodeJCanonical26 mode
  | .literal42 => .decodeJLiteral42 mode

/-- The whole evaluation that `mode` and `fmt` select in a block built with `jl` (R71, R78). Every code selects one. -/
def selectRow (jl : JLayout) (mode : Mode) (fmt : Option Format) : Instr :=
  match fmt with
  | some .r => .decodeR mode
  | some .i => .decodeI mode
  | some .j => decodeJOf mode jl
  | none => .reservedFmt11 mode

/-- The operation of a control word, in a block built with `jl`. -/
def decodeControl (jl : JLayout) (ctl : BitVec 3) : Instr :=
  selectRow jl (modeOfBit (controlMode ctl)) (formatOfCode (controlFmt ctl))

/-- Why a decoder input is no control word. -/
inductive DecodeError where
  /-- There is no byte to read. -/
  | noByte
  /-- A bit above bit 2 is set: the control word has three bits (R78). -/
  | bitsAboveControl (n : Nat)
  deriving DecidableEq, Repr

/-- The operation of a number that should be a control word (log entry 10). -/
def decodeNumber (jl : JLayout) (n : Nat) : Except DecodeError Instr :=
  if n < 8 then .ok (decodeControl jl (BitVec.ofNat 3 n)) else .error (.bitsAboveControl n)

/-- The decoder over bytes: one byte holds one control word in its bits 2 to 0 (log entry 10). -/
def decodeBytes (jl : JLayout) : List Byte → Except DecodeError (Instr × List Byte)
  | [] => .error .noByte
  | b :: rest =>
    match decodeNumber jl b.toNat with
    | .ok i => .ok (i, rest)
    | .error e => .error e

/-- The instruction the decoder reads from the bits the table numbers, in a block built with the default `J_LAYOUT`. -/
def decodeTableWord (nbits w : Nat) : Option Instr :=
  if nbits = 0 then none else (decodeNumber Machine.defaultJLayout (w % 2 ^ nbits)).toOption

/-- The control word of an operation. The ingest rows are selected only together with a DECODE or RESERVED row, and the
internal rows have no control code (R78, R102, R130, R150; log entry 10). -/
def encode : Instr → Option (BitVec 3)
  | .decodeR mode => some (controlWord (modeBit mode) (formatCode .r))
  | .decodeI mode => some (controlWord (modeBit mode) (formatCode .i))
  | .decodeJ mode => some (controlWord (modeBit mode) (formatCode .j))
  | .decodeJCanonical26 mode => some (controlWord (modeBit mode) (formatCode .j))
  | .decodeJLiteral42 mode => some (controlWord (modeBit mode) (formatCode .j))
  | .reservedFmt11 mode => some (controlWord (modeBit mode) 0b11)
  | .ingestBinary => none
  | .ingestBinaryLikeDecimal => none
  | .bitsToNumber _ => none
  | .extractField _ _ _ => none
  | .resolveReg _ => none

/-- Whether a block built with `jl` offers the operation: the three DECODE.J rows belong to one layout each (R75). -/
def offeredBy (jl : JLayout) : Instr → Bool
  | .decodeJ _ => jl == .split16
  | .decodeJCanonical26 _ => jl == .canonical26
  | .decodeJLiteral42 _ => jl == .literal42
  | .decodeR _ => true
  | .decodeI _ => true
  | .reservedFmt11 _ => true
  | .ingestBinary => true
  | .ingestBinaryLikeDecimal => true
  | .bitsToNumber _ => true
  | .extractField _ _ _ => true
  | .resolveReg _ => true

/-- The concatenation of field values under a schema, the first the most significant: `a ++ b = a * 2^width(b) + b`
(R10, R133). -/
def packFields : Schema → List Nat → Nat
  | _ :: rest, v :: vs => v * 2 ^ Machine.schemaSum rest + packFields rest vs
  | _, _ => 0

/-- The instruction word with the given field values: the encoder of the layouts of R73 to R75. -/
def assembleWord (s : Schema) (vs : List Nat) : Word := BitVec.ofNat 32 (packFields s vs)

end Sys2Proof
end

