-- ==== Sys2Proof/Machine/Results.lean ====
section
/-! DEFINITION. The result types of the block: error results (R200 to R202), the Decoder's record (R170), the output ports
(R31), and what an operation returns (R13). -/

namespace Sys2Proof.Machine

/-- The result codes (R201). -/
inductive ResultCode where
  | ok
  | invalidDigit
  | invalidFormat
  | schemaWidthMismatch
  | fieldIndexOutOfRange
  | invalidRegisterNumber
  deriving DecidableEq, Repr

/-- The errors, each with the information it records (R202). -/
inductive Error where
  /-- The least significant decimal digit of 2 to 9: its position and value (R101). -/
  | invalidDigit (pos digit : Nat)
  /-- The reserved `fmt` code; nothing is recorded (R83). -/
  | invalidFormat
  /-- The selected schema's widths sum to `sum`, not 32 (R132). -/
  | schemaWidthMismatch (fmt : Format) (sum : Nat)
  /-- A field's raw value is 32 or more (R174). -/
  | fieldIndexOutOfRange (name : FieldName) (raw : Nat)
  /-- The resolver's own error, for an index of 32 or more (R150). -/
  | invalidRegisterNumber (index : Nat)
  deriving DecidableEq, Repr

/-- `Ok(v)` or `Err(E, info)` (R13). -/
inductive OpResult (α : Type) where
  | ok (v : α)
  | err (e : Error)
  deriving DecidableEq, Repr

/-- A field's value in the Decoder's record: `Name(s)` or `FieldErr(FieldIndexOutOfRange, name, raw)` (R13, R170). -/
inductive FieldValue where
  | name (s : Text)
  | fieldErr (name : FieldName) (raw : Nat)
  deriving DecidableEq, Repr

/-- One extracted field of the schema walk (R131). -/
structure WalkEntry where
  name : FieldName
  hi : Nat
  lo : Nat
  width : Nat
  bits : Word
  deriving DecidableEq, Repr

/-- `FieldOut` (R170). -/
structure FieldOut where
  name : FieldName
  hi : Nat
  lo : Nat
  width : Nat
  raw : Nat
  value : FieldValue
  deriving DecidableEq, Repr

/-- `DecodeResult` (R170). -/
structure DecodeResult where
  status : ResultCode
  word : Word
  fields : List FieldOut
  badPos : Nat
  badDigit : Nat
  schemaSum : Nat
  deriving DecidableEq, Repr

/-- The output ports of one field slot (R31): `fname_k`, `fhi_k`, `flo_k`, `fraw_k`, `fok_k`, `freg_k`, `freglen_k`. -/
structure Slot where
  fname : BitVec 4
  fhi : BitVec 5
  flo : BitVec 5
  fraw : BitVec 26
  fok : BitVec 1
  freg : BitVec 40
  freglen : BitVec 3
  deriving DecidableEq, Repr, Inhabited

/-- The output ports (R31): six slots, slot 0 the most significant field. -/
structure Outputs where
  status : BitVec 3
  word : BitVec 32
  nfields : BitVec 3
  badPos : BitVec 5
  badDigit : BitVec 4
  schemaSum : BitVec 7
  slots : Vector Slot 6
  deriving DecidableEq, Repr, Inhabited

/-- What an operation returned (R12 `return`, R13). The field of State that holds it is the model's own (log entry 3). -/
inductive Returned where
  /-- No operation has returned yet. -/
  | nothing
  /-- NumberToBits: the word or InvalidDigit (R100, R101). -/
  | word (r : OpResult Word)
  /-- BitsToNumber (R102). -/
  | number (n : Nat)
  /-- ExtractField (R130). -/
  | bits (out : Word)
  /-- ResolveRegisterName (R150). -/
  | regName (r : OpResult Text)
  /-- The Decoder's record (R170). -/
  | decode (r : DecodeResult)
  deriving DecidableEq, Repr

end Sys2Proof.Machine
end

