-- ==== Sys2Proof/Machine/Flags.lean ====
section
/-! DEFINITION. The block has no flags (R28); this file holds the outputs that play their part: the result codes (R201), what
each error records (R202), and when a field or a decode is in error (R174, R175). -/

namespace Sys2Proof.Machine

/-- The numeric result code (R201), which is also the exit code of the rendering (R181). -/
def statusCode : ResultCode → Nat
  | .ok => 0
  | .invalidDigit => 1
  | .invalidFormat => 2
  | .schemaWidthMismatch => 3
  | .fieldIndexOutOfRange => 4
  | .invalidRegisterNumber => 5

/-- The result code of an error (R201). -/
def errorCode : Error → ResultCode
  | .invalidDigit _ _ => .invalidDigit
  | .invalidFormat => .invalidFormat
  | .schemaWidthMismatch _ _ => .schemaWidthMismatch
  | .fieldIndexOutOfRange _ _ => .fieldIndexOutOfRange
  | .invalidRegisterNumber _ => .invalidRegisterNumber

/-- What `bad_pos` shows of an error (R202). -/
def errorPos : Error → Nat
  | .invalidDigit pos _ => pos
  | .invalidFormat => 0
  | .schemaWidthMismatch _ _ => 0
  | .fieldIndexOutOfRange _ _ => 0
  | .invalidRegisterNumber _ => 0

/-- What `bad_digit` shows of an error (R202). -/
def errorDigit : Error → Nat
  | .invalidDigit _ digit => digit
  | .invalidFormat => 0
  | .schemaWidthMismatch _ _ => 0
  | .fieldIndexOutOfRange _ _ => 0
  | .invalidRegisterNumber _ => 0

/-- What `schema_sum` shows of an error (R202). -/
def errorSum : Error → Nat
  | .invalidDigit _ _ => 0
  | .invalidFormat => 0
  | .schemaWidthMismatch _ sum => sum
  | .fieldIndexOutOfRange _ _ => 0
  | .invalidRegisterNumber _ => 0

/-- Whether a field's value is a register name, `fok_k` (R31). -/
def valueOk : FieldValue → Bool
  | .name _ => true
  | .fieldErr _ _ => false

/-- The status of a decode that reached its fields: FieldIndexOutOfRange if at least one is in error (R175). -/
def fieldsStatus (fields : List FieldOut) : ResultCode :=
  if fields.all (fun f => valueOk f.value) then .ok else .fieldIndexOutOfRange

end Sys2Proof.Machine
end

