-- ==== Sys2Proof/Machine/Operands.lean ====
section
/-! DEFINITION. How the block forms its values: NumberToBits in two modes (R100, R101), BitsToNumber (R102), ExtractField
(R130), the schema check and walk (R131, R132), and ResolveRegisterName (R150). Each is the rule's own pseudocode; a `while`
loop over a 64-bit value is recursion on 64 units of fuel, which it never exhausts (log entry 16). -/

namespace Sys2Proof.Machine

/-- `w[i] <- b` (R12). -/
def setBit (w : Word) (i : Nat) (b : Bool) : Word :=
  if b then w ||| (1#32 <<< i) else w &&& ~~~(1#32 <<< i)

/-- The loop of NumberToBits in binary mode: `v`, the index `i` and the word so far (R100). -/
def binaryLoop : Nat → Nat → Nat → Word → Word
  | 0, _, _, w => w
  | fuel + 1, v, i, w =>
    if v = 0 then w
    else binaryLoop fuel (v / 2) (i + 1) (if i < 32 then setBit w i (v % 2 == 1) else w)

/-- NumberToBits, binary mode (R100): it cannot fail. -/
def numberToBitsBinary (src : Src) : Word := binaryLoop 64 src.toNat 0 0

/-- The loop of NumberToBits in binary-like decimal mode, units digit first (R101). -/
def decimalLoop : Nat → Nat → Nat → Word → OpResult Word
  | 0, _, _, w => .ok w
  | fuel + 1, v, i, w =>
    if v = 0 then .ok w
    else if 2 ≤ v % 10 then .err (.invalidDigit i (v % 10))
    else decimalLoop fuel (v / 10) (i + 1) (if i < 32 then setBit w i (v % 10 == 1) else w)

/-- NumberToBits, binary-like decimal mode (R101). -/
def numberToBitsDecimal (src : Src) : OpResult Word := decimalLoop 64 src.toNat 0 0

/-- NumberToBits in the mode of the `mode` port (R78). -/
def numberToBits : Mode → Src → OpResult Word
  | .binary, src => .ok (numberToBitsBinary src)
  | .binaryLikeDecimal, src => numberToBitsDecimal src

/-- The sum of `b[i] * 2^i` over `i < n` (R102). -/
def bitSum (b : Word) : Nat → Nat
  | 0 => 0
  | n + 1 => bitSum b n + (if b.getLsbD n then 2 ^ n else 0)

/-- BitsToNumber (R102). -/
def bitsToNumber (b : Word) : Nat := bitSum b 32

/-- The loop of ExtractField: `out[k] <- b[lo + k]` for `k < n` (R130). -/
def extractLoop (b : Word) (lo : Nat) : Nat → Word
  | 0 => 0
  | n + 1 => setBit (extractLoop b lo n) n (b.getLsbD (lo + n))

/-- ExtractField (R130). -/
def extractBits (b : Word) (lo width : Nat) : Word := extractLoop b lo width

/-- The loop of the schema walk, from `offset` downward: the offset falls by the width before the extraction (R131). -/
def schemaWalkFrom (w : Word) : Nat → Schema → List WalkEntry
  | _, [] => []
  | offset, (name, width) :: rest =>
    { name := name, hi := offset - width + width - 1, lo := offset - width, width := width,
      bits := extractBits w (offset - width) width } :: schemaWalkFrom w (offset - width) rest

/-- The schema walk, which starts one past bit 31 (R131). -/
def schemaWalk (w : Word) (s : Schema) : List WalkEntry := schemaWalkFrom w 32 s

/-- CheckSchema (R132). -/
def checkSchema (fmt : Format) (s : Schema) : OpResult Unit :=
  if schemaSum s ≠ 32 then .err (.schemaWidthMismatch fmt (schemaSum s)) else .ok ()

/-- ResolveRegisterName: a read of the ROM, or an error (R150). -/
def resolveRegisterName (names : RegNames) (i : Nat) : OpResult Text :=
  if h : i ≤ 31 then .ok (names[i]'(Nat.lt_succ_of_le h)) else .err (.invalidRegisterNumber i)

end Sys2Proof.Machine
end

