-- ==== Sys2Proof/Machine/Decoder.lean ====
section
/-! DEFINITION. The Decoder as a function of its inputs and parameters (R170). -/

namespace Sys2Proof.Machine

/-- The result of an evaluation that an error ends: no field, the recorded details, nothing saved and nothing entered
(R170, R200, R202). It stands where another machine's taking of an exception would. -/
def raiseError (e : Error) (w : Word) : DecodeResult :=
  { status := errorCode e, word := w, fields := [],
    badPos := errorPos e, badDigit := errorDigit e, schemaSum := errorSum e }

/-- The value of a field by its raw value: the resolver's name, or FieldIndexOutOfRange on the field (R174). -/
def fieldValue (names : RegNames) (name : FieldName) (raw : Nat) : FieldValue :=
  match resolveRegisterName names raw with
  | .ok s => .name s
  | .err _ => .fieldErr name raw

/-- Step (c) of R170 for one field of the walk. -/
def fieldOut (names : RegNames) (e : WalkEntry) : FieldOut :=
  { name := e.name, hi := e.hi, lo := e.lo, width := e.width,
    raw := bitsToNumber e.bits, value := fieldValue names e.name (bitsToNumber e.bits) }

/-- Steps (c) to (e) of R170: every field, in schema order. -/
def decodeFields (names : RegNames) (s : Schema) (w : Word) : DecodeResult :=
  let fields := (schemaWalk w s).map (fieldOut names)
  { status := fieldsStatus fields, word := w, fields := fields, badPos := 0, badDigit := 0, schemaSum := 0 }

/-- Steps (b) to (e) of R170 for an ingested word; `none` is the reserved `fmt` code. -/
def decodeWord (jl : JLayout) (names : RegNames) (fmt : Option Format) (w : Word) : DecodeResult :=
  match fmt with
  | none => raiseError .invalidFormat w
  | some f =>
    match checkSchema f (schema f jl) with
    | .err e => raiseError e w
    | .ok _ => decodeFields names (schema f jl) w

/-- Decode (R170). An ingest that fails ends it before `fmt` is examined, with word 0 (R203). -/
def decode (jl : JLayout) (names : RegNames) (src : Src) (mode : Mode) (fmt : Option Format) : DecodeResult :=
  match numberToBits mode src with
  | .err e => raiseError e 0
  | .ok w => decodeWord jl names fmt w

end Sys2Proof.Machine
end

