-- ==== Sys2Proof/Machine/Ports.lean ====
section
/-! DEFINITION. How a Decoder's record is carried on the output ports (R31 to R34, R170 "On the ports"). -/

namespace Sys2Proof.Machine

/-- A name as ASCII bytes, character 0 in the lowest byte (R34). -/
def encodeName : Text → BitVec 40
  | [] => 0
  | c :: rest => (encodeName rest <<< 8) ||| BitVec.ofNat 40 (c.toNat % 256)

/-- An unused slot (R31, R32). -/
def unusedSlot : Slot :=
  { fname := 0b1111, fhi := 0, flo := 0, fraw := 0, fok := 0, freg := 0, freglen := 0 }

/-- The name a slot carries; none for a field in error. -/
def valueText : FieldValue → Text
  | .name s => s
  | .fieldErr _ _ => []

/-- A used slot (R31, R170). A field in error carries no name: `freg` and `freglen` are 0 (R202). -/
def usedSlot (f : FieldOut) : Slot :=
  { fname := fieldCode f.name, fhi := BitVec.ofNat 5 f.hi, flo := BitVec.ofNat 5 f.lo,
    fraw := BitVec.ofNat 26 f.raw, fok := BitVec.ofBool (valueOk f.value),
    freg := encodeName (valueText f.value), freglen := BitVec.ofNat 3 (valueText f.value).length }

/-- Slot `k` of a record's fields (R32). -/
def slotAt (fields : List FieldOut) (k : Nat) : Slot :=
  match fields[k]? with
  | some f => usedSlot f
  | none => unusedSlot

/-- The output ports of a record (R170). -/
def outputsOf (r : DecodeResult) : Outputs :=
  { status := BitVec.ofNat 3 (statusCode r.status), word := r.word,
    nfields := BitVec.ofNat 3 r.fields.length,
    badPos := BitVec.ofNat 5 r.badPos, badDigit := BitVec.ofNat 4 r.badDigit,
    schemaSum := BitVec.ofNat 7 r.schemaSum,
    slots := #v[slotAt r.fields 0, slotAt r.fields 1, slotAt r.fields 2,
                slotAt r.fields 3, slotAt r.fields 4, slotAt r.fields 5] }

end Sys2Proof.Machine
end

