-- ==== Sys2Proof/Machine/State.lean ====
section
/-! DEFINITION. The state of the machine as plain data, its reset, and the reasons a step can stop. -/

namespace Sys2Proof.Machine

/-- The block as data: its two build-time parameters, its input ports, its output ports as the last evaluation drove them
(log entry 1), and two fields of the model's own (`alone`, log entry 2; `ret`, log entry 3). The block has no mutable
architectural state (R20), no register, flag, pc or memory (R26 to R29, R50), so there is none here. -/
structure State where
  /-- `J_LAYOUT` (R8, R75), fixed at build time (R232). -/
  jLayout : JLayout
  /-- `REG_NAMES` (R24, R25), fixed at build time (R232). -/
  regNames : RegNames
  /-- `src` (R30). -/
  src : BitVec 64
  /-- `mode` (R30). -/
  mode : BitVec 1
  /-- `fmt` (R30). -/
  fmt : BitVec 2
  /-- The model's own: an operation to evaluate by itself, in place of the evaluation of the ports (log entry 2). -/
  alone : Option Instr
  /-- The output ports (R31). -/
  outputs : Outputs
  /-- The model's own: what the last operation returned (R13; log entry 3). -/
  ret : Returned
  deriving DecidableEq, Repr

/-- The machine never stops with a fault: errors are results, not traps (R200, R206; log entry 13). A closed type with no
constructor. -/
inductive Fault where
  deriving DecidableEq, Repr

/-- Why a step has no next state. -/
inductive Refusal where
  /-- Raised by an arm of `exec` whose instruction has no meaning yet; no arm raises it. Safe. -/
  | notModelled (mnemonic : String)
  /-- Raised by EXTRACT_FIELD on its own where `W = 0` or `lo + W > 32`: such a call "has no meaning" and must be refused
  (R130; 93 U4; log entry 11). Safe. -/
  | extractOutsideWord (lo width : Nat)
  deriving DecidableEq, Repr

/-- The outputs of the block for the input values that `State.reset` has on its ports (R36, R231). -/
def resetOutputs : Outputs :=
  outputsOf (decode defaultJLayout defaultRegNames 0 .binary (some .r))

/-- The machine right after reset. Reset sets nothing (R230): the parameters are at their defaults, the inputs at the
values of log entry 5, and the outputs are the function of these inputs (R36; log entry 6). -/
def State.reset : State :=
  { jLayout := defaultJLayout, regNames := defaultRegNames, src := 0, mode := 0, fmt := 0,
    alone := none, outputs := resetOutputs, ret := .nothing }

end Sys2Proof.Machine

namespace Sys2Proof

/-- What the outputs of an implementation that registers them hold from reset to its first evaluation: any value (R231;
93 U7). A free value: it has no body, so nothing can be proved of it (log entry 6). -/
opaque Config.heldOutputs : Machine.Outputs

end Sys2Proof

namespace Sys2Proof.Machine

/-- Right after reset, for an implementation that registers its outputs (R231). -/
def State.resetRegistered : State := { State.reset with outputs := Config.heldOutputs }

end Sys2Proof.Machine
end

