-- ==== Sys2Proof/Machine/Ops.lean ====
section
/-! DEFINITION. The named operations on State: presenting inputs, driving outputs, returning a value, one evaluation, and
which operation a step evaluates. Taking an exception has no counterpart here: an error saves and enters nothing (R200, R206);
the shared operation is `raiseError` in Machine/Decoder.lean. -/

namespace Sys2Proof.Machine

/-- The host presents inputs and asks for an evaluation of the ports (R29, R30). -/
def State.present (s : State) (src : Src) (mode : BitVec 1) (fmt : BitVec 2) : State :=
  { s with src := src, mode := mode, fmt := fmt, alone := none }

/-- An operation on its own is asked for (log entry 2). -/
def State.request (s : State) (i : Instr) : State := { s with alone := some i }

/-- An operation on its own returns a value; the ports are the Decoder's and stay (R13; log entry 4). -/
def State.returning (s : State) (v : Returned) : State := { s with ret := v }

/-- The Decoder returns a record and drives the output ports with it (R170). -/
def State.decoded (s : State) (r : DecodeResult) : State :=
  { s with outputs := outputsOf r, ret := .decode r }

/-- One whole evaluation of the `src` port, with the layout of the row (R170). It always has a result (R200, R208). -/
def evaluate (jl : JLayout) (mode : Mode) (fmt : Option Format) (s : State) : Host.Outcome State Fault Refusal :=
  .next (s.decoded (decode jl s.regNames s.src mode fmt))

/-- The outputs of the combinational block for the inputs that are on the ports now (R36, R231). The field `outputs` holds
what the last evaluation drove (log entry 1). -/
def State.liveOutputs (s : State) : Outputs :=
  outputsOf (decode s.jLayout s.regNames s.src (modeOfBit s.mode) (formatOfCode s.fmt))

/-- The operation a step evaluates: the one asked for on its own, else the one the control ports select (R71, R78). -/
def State.fetch (s : State) : Instr :=
  match s.alone with
  | some i => i
  | none => decodeControl s.jLayout (controlWord s.mode s.fmt)

/-- The state whose next step evaluates the control word `n` of a block built with the default `J_LAYOUT` (log entry 10).
A number that is no control word places nothing. -/
def State.placeControl (s : State) (n : Nat) : State :=
  if n < 8 then
    { s with jLayout := defaultJLayout, mode := controlMode (BitVec.ofNat 3 n),
             fmt := controlFmt (BitVec.ofNat 3 n), alone := none }
  else s

end Sys2Proof.Machine
end

