-- ==== Sys2Proof/Machine/Evaluate.lean ====
section
/-! DEFINITION. The meanings of the six rows that the `fmt` port selects: whole evaluations (R170 to R173, R83). -/

namespace Sys2Proof.Machine

/-- DECODE.R (R171). -/
def execDecodeR (mode : Mode) (s : State) : Host.Outcome State Fault Refusal :=
  evaluate s.jLayout mode (some .r) s

/-- DECODE.I (R172). -/
def execDecodeI (mode : Mode) (s : State) : Host.Outcome State Fault Refusal :=
  evaluate s.jLayout mode (some .i) s

/-- DECODE.J, the row of `J_LAYOUT = SPLIT16` (R173; log entry 9). -/
def execDecodeJ (mode : Mode) (s : State) : Host.Outcome State Fault Refusal :=
  evaluate .split16 mode (some .j) s

/-- DECODE.J.CANONICAL26 (R173; log entry 9). -/
def execDecodeJCanonical26 (mode : Mode) (s : State) : Host.Outcome State Fault Refusal :=
  evaluate .canonical26 mode (some .j) s

/-- DECODE.J.LITERAL42 (R173, R132; log entry 9). -/
def execDecodeJLiteral42 (mode : Mode) (s : State) : Host.Outcome State Fault Refusal :=
  evaluate .literal42 mode (some .j) s

/-- RESERVED.fmt11: InvalidFormat after a successful ingest (R83, R202). -/
def execReservedFmt11 (mode : Mode) (s : State) : Host.Outcome State Fault Refusal :=
  evaluate s.jLayout mode none s

end Sys2Proof.Machine
end

