-- ==== Sys2Proof/Machine/Extract.lean ====
section
/-! DEFINITION. The meaning of EXTRACT_FIELD (R130). -/

namespace Sys2Proof.Machine

/-- EXTRACT_FIELD. On its own it must refuse a range that is empty or leaves the word (R130; 93 U4). -/
def execExtractField (b : Word) (lo width : Nat) (s : State) : Host.Outcome State Fault Refusal :=
  if FieldRangeOk lo width then .next (s.returning (.bits (extractBits b lo width)))
  else .refused (.extractOutsideWord lo width)

end Sys2Proof.Machine
end

