-- ==== Sys2Proof/Machine/Ingest.lean ====
section
/-! DEFINITION. The meanings of the ingest rows and of BITS_TO_NUMBER (R100 to R102). -/

namespace Sys2Proof.Machine

/-- INGEST.binary (R100). -/
def execIngestBinary (s : State) : Host.Outcome State Fault Refusal :=
  .next (s.returning (.word (numberToBits .binary s.src)))

/-- INGEST.binaryLikeDecimal (R101). -/
def execIngestBinaryLikeDecimal (s : State) : Host.Outcome State Fault Refusal :=
  .next (s.returning (.word (numberToBits .binaryLikeDecimal s.src)))

/-- BITS_TO_NUMBER (R102). -/
def execBitsToNumber (b : Word) (s : State) : Host.Outcome State Fault Refusal :=
  .next (s.returning (.number (bitsToNumber b)))

end Sys2Proof.Machine
end

