-- ==== Sys2Proof/Machine/Resolve.lean ====
section
/-! DEFINITION. The meaning of RESOLVE_REG (R150). -/

namespace Sys2Proof.Machine

/-- RESOLVE_REG: the name, or InvalidRegisterNumber, which only the resolver on its own shows (R150, R202). -/
def execResolveReg (i : BitVec 26) (s : State) : Host.Outcome State Fault Refusal :=
  .next (s.returning (.regName (resolveRegisterName s.regNames i.toNat)))

end Sys2Proof.Machine
end

