-- ==== Sys2Proof/Machine/Dispatch.lean ====
section
/-! DEFINITION. One arm per constructor of Instr. -/

namespace Sys2Proof.Machine

/-- The meaning of each operation of spec/opcode_table.json. -/
def exec (i : Instr) (s : State) : Host.Outcome State Fault Refusal :=
  match i with
  | .decodeR mode => Sys2Proof.Machine.execDecodeR mode s
  | .decodeI mode => Sys2Proof.Machine.execDecodeI mode s
  | .decodeJ mode => Sys2Proof.Machine.execDecodeJ mode s
  | .decodeJCanonical26 mode => Sys2Proof.Machine.execDecodeJCanonical26 mode s
  | .decodeJLiteral42 mode => Sys2Proof.Machine.execDecodeJLiteral42 mode s
  | .reservedFmt11 mode => Sys2Proof.Machine.execReservedFmt11 mode s
  | .ingestBinary => Sys2Proof.Machine.execIngestBinary s
  | .ingestBinaryLikeDecimal => Sys2Proof.Machine.execIngestBinaryLikeDecimal s
  | .bitsToNumber b => Sys2Proof.Machine.execBitsToNumber b s
  | .extractField b lo width => Sys2Proof.Machine.execExtractField b lo width s
  | .resolveReg index => Sys2Proof.Machine.execResolveReg index s

end Sys2Proof.Machine
end

