-- ==== Sys2Proof/Machine/Step.lean ====
section
/-! DEFINITION. One step: one evaluation, atomic and without duration (R7, R235). -/

namespace Sys2Proof.Machine

/-- One evaluation of the operation the inputs select. -/
def step (s : State) : Host.Outcome State Fault Refusal := exec s.fetch s

/-- `s` with the table's instruction word placed on the control ports, so that the next step evaluates it (log entry 10). -/
def State.withFetchWord (s : State) (nbits w : Nat) : State :=
  if nbits = 0 then s else s.placeControl (w % 2 ^ nbits)

end Sys2Proof.Machine
end

