-- ==== Sys2Proof/Machine/External.lean ====
section
/-! DEFINITION. The external interface of the block (§6 of the source, R5): configuration onto the input ports (R180, R103),
a host's assembly of a word from bytes (R52), and the rendering of a result (R181). -/

namespace Sys2Proof.Machine

/-- The configuration inputs `FORMAT`, `NUMBER` and `NUMBER_IS_BINARY` (R180). -/
structure ExternalConfig where
  format : Format
  number : Src
  numberIsBinary : Bool
  deriving DecidableEq, Repr

/-- The configuration on the input ports: `NUMBER_IS_BINARY = true` is `mode = 1` (R180). -/
def State.configure (s : State) (c : ExternalConfig) : State :=
  s.present c.number (BitVec.ofBool c.numberIsBinary) (formatCode c.format)

/-- A pre-built word, presented as `src = zext_64(w)` with `mode = 0` (R103). -/
def State.presentWord (s : State) (w : Word) (fmt : BitVec 2) : State :=
  s.present (w.setWidth 64) 0 fmt

/-- A host's word from four bytes, the first at the lowest address (`HOST_BYTE_ORDER`, R52; log entry 14). -/
def assembleBytes : HostByteOrder → Byte → Byte → Byte → Byte → Word
  | .big, b0, b1, b2, b3 => b0 ++ b1 ++ b2 ++ b3
  | .little, b0, b1, b2, b3 => b3 ++ b2 ++ b1 ++ b0

/-- The text and the exit code of the external program (R181). -/
structure Rendering where
  text : Text
  exitCode : Nat
  deriving DecidableEq, Repr

/-- `<decodedValue>`: the register name, or the raw value in decimal for a field in error (R181). -/
def renderValue : FieldValue → Text
  | .name s => s
  | .fieldErr _ raw => Nat.toDigits 10 raw

/-- One line: the field's name, one space, its value, one line feed (R181). -/
def renderField (f : FieldOut) : Text := fieldText f.name ++ [' '] ++ renderValue f.value ++ ['\n']

/-- Render (R181). -/
def render (r : DecodeResult) : Rendering :=
  { text := (r.fields.map renderField).flatten, exitCode := statusCode r.status }

/-- The external program: configure, evaluate once, render (R180, R181). -/
def runExternal (jl : JLayout) (names : RegNames) (c : ExternalConfig) : Rendering :=
  render (decode jl names c.number (if c.numberIsBinary then .binaryLikeDecimal else .binary) (some c.format))

end Sys2Proof.Machine
end

