-- ==== Sys2Proof/Safety.lean ====
section
/-! DEFINITION. The terms claims are stated in: which register-name tables are admissible, which port values are legal, and
the invariant of the machine. -/

namespace Sys2Proof.Machine

/-- What every `REG_NAMES` must be: the four entries the source fixes (R24), every entry non-empty and beginning with `$`
(R25). -/
abbrev NamesAdmissible (names : RegNames) : Prop :=
  names[0] = ['$', 'z', 'e', 'r', 'o'] ∧ names[8] = ['$', 't', '0'] ∧ names[14] = ['$', 't', '6'] ∧
  names[31] = ['$', 'r', 'a'] ∧ ∀ i : Fin 32, names[i].head? = some '$'

/-- The names that `freg_k` and `freglen_k` can carry whole: at most 5 ASCII characters (R31, R34; log entry 12). -/
abbrev NamesPortable (names : RegNames) : Prop :=
  ∀ i : Fin 32, names[i].length ≤ 5 ∧ names[i].all (fun c => decide (c.toNat < 128)) = true

/-- The decimal digit of `v` worth `10^i` (R101). -/
def digit (v i : Nat) : Nat := v / 10 ^ i % 10

/-- The `hi` to `lo` slice of a word as an unsigned number, `w[hi:lo]` (R9, R10). -/
def slice (w : Word) (hi lo : Nat) : Nat := w.toNat / 2 ^ lo % 2 ^ (hi + 1 - lo)

/-- The raw field values of a word under a schema, in schema order (R131, R134). -/
def rawValues (w : Word) (s : Schema) : List Nat := (schemaWalk w s).map (fun e => bitsToNumber e.bits)

/-- One field of a Decoder's record, written out (R171 to R173). -/
def fieldOf (names : RegNames) (w : Word) (name : FieldName) (hi lo width : Nat) : FieldOut :=
  { name := name, hi := hi, lo := lo, width := width, raw := slice w hi lo,
    value := fieldValue names name (slice w hi lo) }

/-- A used slot of a legal output (R31, R33, R34): its field is a slice of the word, and it carries a name exactly when the
raw value is 31 or less; the name begins with `$` (R25) and has zero bytes above its length. -/
abbrev SlotLegal (w : Word) (k : Slot) : Prop :=
  k.fname.toNat ≤ 7 ∧ k.flo.toNat ≤ k.fhi.toNat ∧
  k.fraw.toNat = slice w k.fhi.toNat k.flo.toNat ∧
  (k.fok = 1 ↔ k.fraw.toNat ≤ 31) ∧
  (k.fok = 0 → k.freg = 0 ∧ k.freglen = 0) ∧
  (k.fok = 1 → k.freg.toNat % 256 = 0x24 ∧ 1 ≤ k.freglen.toNat ∧ k.freglen.toNat ≤ 5 ∧ k.freg.toNat < 256 ^ k.freglen.toNat)

/-- The status and error-detail ports agree (R31, R201, R202). -/
abbrev DetailsLegal (o : Outputs) : Prop :=
  o.status.toNat ≤ 4 ∧
  (o.nfields = 0 ↔ o.status = 1 ∨ o.status = 2 ∨ o.status = 3) ∧
  (o.nfields = 0 ∨ o.nfields = 2 ∨ o.nfields = 4 ∨ o.nfields = 6) ∧
  (o.status = 1 → o.word = 0 ∧ o.badPos.toNat ≤ 19 ∧ 2 ≤ o.badDigit.toNat ∧ o.badDigit.toNat ≤ 9) ∧
  (o.status ≠ 1 → o.badPos = 0 ∧ o.badDigit = 0) ∧
  o.schemaSum = (if o.status = 3 then 42 else 0)

/-- The slots of a legal output: the used ones partition the word from bit 31 down to bit 0 and agree with the status; the
others are unused (R32, R77, R175). -/
abbrev SlotsLegal (o : Outputs) : Prop :=
  (∀ k : Fin 6, k.val < o.nfields.toNat → SlotLegal o.word o.slots[k]) ∧
  (∀ k : Fin 6, o.nfields.toNat ≤ k.val → o.slots[k] = unusedSlot) ∧
  (o.nfields ≠ 0 → o.slots[0].fhi = 31) ∧
  (∀ k : Fin 5, k.val + 1 < o.nfields.toNat →
    o.slots[k.castSucc].flo.toNat = o.slots[k.succ].fhi.toNat + 1) ∧
  (∀ k : Fin 6, k.val + 1 = o.nfields.toNat → o.slots[k].flo = 0) ∧
  (o.status = 0 → ∀ k : Fin 6, k.val < o.nfields.toNat → o.slots[k].fok = 1) ∧
  (o.status = 4 → ∃ k : Fin 6, k.val < o.nfields.toNat ∧ o.slots[k].fok = 0)

/-- A value the output ports can show. -/
abbrev OutputsLegal (o : Outputs) : Prop := DetailsLegal o ∧ SlotsLegal o

/-- If the last operation was a decode, the ports carry its record (R170). -/
def State.portsAgree (s : State) : Bool :=
  match s.ret with
  | .decode r => s.outputs == outputsOf r
  | .nothing => true
  | .word _ => true
  | .number _ => true
  | .bits _ => true
  | .regName _ => true

/-- The invariant of the machine: an admissible ROM whose names fit the ports, and ports at a legal value that agree with
the last record. -/
abbrev State.Inv (s : State) : Prop :=
  NamesAdmissible s.regNames ∧ NamesPortable s.regNames ∧ OutputsLegal s.outputs ∧ s.portsAgree = true

/-- The parameters and the inputs, which no evaluation changes (R20, R23, R25). -/
abbrev SameInputs (s t : State) : Prop :=
  t.jLayout = s.jLayout ∧ t.regNames = s.regNames ∧ t.src = s.src ∧ t.mode = s.mode ∧ t.fmt = s.fmt ∧ t.alone = s.alone

end Sys2Proof.Machine
end

