-- ==== Sys2Proof/Certificates/Slice0/Obligations.lean ====
section
/-! DEFINITION. The statements for the provers, each from the spec rule its docstring names. Every statement that quantifies
over a State holds for every `J_LAYOUT` and every `REG_NAMES` its hypotheses admit. -/

open Sys2Proof Sys2Proof.Machine

/-- R100. NumberToBits in binary mode gives `src[31:0]` and cannot fail; INGEST.binary returns it. -/
def Obligations.BinaryIngestTakesLow32 : Prop :=
  ∀ s : State,
    numberToBits .binary s.src = .ok (s.src.extractLsb' 0 32) ∧
    ∃ t, exec .ingestBinary s = .next t ∧ t.ret = .word (.ok (s.src.extractLsb' 0 32))

/-- R101. In binary-like decimal mode digit `i` becomes bit `i` when every digit is 0 or 1; else the least significant digit
of 2 or more is recorded, at a position of at most 19, and a decode shows word 0. -/
def Obligations.DecimalIngestReadsDigits : Prop :=
  ∀ s : State,
    ((∀ i, digit s.src.toNat i ≤ 1) →
      ∃ (w : Word) (t : State), exec .ingestBinaryLikeDecimal s = .next t ∧ t.ret = .word (.ok w) ∧
        (∀ i, i < 32 → w.getLsbD i = (digit s.src.toNat i == 1)) ∧ w.extractLsb' 20 12 = 0) ∧
    (∀ p, 2 ≤ digit s.src.toNat p → (∀ j, j < p → digit s.src.toNat j ≤ 1) →
      p ≤ 19 ∧
      (∃ t, exec .ingestBinaryLikeDecimal s = .next t ∧ t.ret = .word (.err (.invalidDigit p (digit s.src.toNat p)))) ∧
      ∀ jl fmt, (decode jl s.regNames s.src .binaryLikeDecimal fmt).word = 0)

/-- R102. BitsToNumber is the sum of `bit[i] * 2^i`, the unsigned value, below `2^32`; BITS_TO_NUMBER returns it. -/
def Obligations.BitsToNumberIsUnsignedSum : Prop :=
  ∀ (b : Word) (s : State),
    (∃ t, exec (.bitsToNumber b) s = .next t ∧ t.ret = .number b.toNat) ∧
    bitsToNumber b = ∑ i ∈ Finset.range 32, (b.getLsbD i).toNat * 2 ^ i ∧
    bitsToNumber b < 2 ^ 32

/-- R103. A pre-built word presented as `zext_64(w)` with mode 0 is ingested as exactly `w`. -/
def Obligations.PrebuiltWordIngestedUnchanged : Prop :=
  ∀ (s : State) (w : Word) (fmt : BitVec 2),
    (s.presentWord w fmt).src = w.setWidth 64 ∧ (s.presentWord w fmt).mode = 0 ∧
    numberToBits (modeOfBit (s.presentWord w fmt).mode) (s.presentWord w fmt).src = .ok w ∧
    ∃ t, step (s.presentWord w fmt) = .next t ∧ t.outputs.word = w

/-- R104. BitsToNumber after NumberToBits in binary mode is `v mod 2^32`, and so `v` itself below `2^32`. -/
def Obligations.BinaryIngestRoundTrip : Prop :=
  ∀ v : Src, ∃ w, numberToBits .binary v = .ok w ∧
    bitsToNumber w = v.toNat % 2 ^ 32 ∧ (v.toNat < 2 ^ 32 → bitsToNumber w = v.toNat)

/-- R105. Binary-like decimal mode produces exactly the words with bits 31 to 20 clear, each from exactly one source: the
numeral whose digit `i` is `w[i]`. -/
def Obligations.DecimalIngestReach : Prop :=
  (∀ (src : Src) (w : Word), numberToBits .binaryLikeDecimal src = .ok w → w.extractLsb' 20 12 = 0) ∧
  (∀ w : Word, w.extractLsb' 20 12 = 0 →
    ∃ src : Src, numberToBits .binaryLikeDecimal src = .ok w ∧
      src.toNat = ∑ i ∈ Finset.range 20, (w.getLsbD i).toNat * 10 ^ i ∧
      ∀ src' : Src, numberToBits .binaryLikeDecimal src' = .ok w → src' = src)

/-- R130. ExtractField is `zext_32(b[lo+W-1:lo])`; on its own it refuses a range that is empty or leaves the word, and
every extraction of the Decoder's walk meets the precondition. -/
def Obligations.ExtractFieldTakesSlice : Prop :=
  ∀ (b : Word) (lo width : Nat) (s : State),
    (1 ≤ width → lo + width ≤ 32 →
      ∃ t, exec (.extractField b lo width) s = .next t ∧ t.ret = .bits ((b.extractLsb' lo width).setWidth 32)) ∧
    (width = 0 ∨ 32 < lo + width →
      exec (.extractField b lo width) s = .refused (.extractOutsideWord lo width)) ∧
    ∀ (f : Format) (jl : JLayout), schemaSum (schema f jl) = 32 → ∀ e ∈ schemaWalk b (schema f jl),
      1 ≤ e.width ∧ e.lo + e.width ≤ 32 ∧ e.bits = (b.extractLsb' e.lo e.width).setWidth 32

/-- R131, R72. The walk of a schema of sum 32: entry `k` has the schema's name and width, `hi_k = 31 - S_k`,
`lo_k = 32 - S_k - W_k` where `S_k` is the sum of the widths before it, and the bits of that range. -/
def Obligations.SchemaWalkRanges : Prop :=
  ∀ (w : Word) (s : Schema), schemaSum s = 32 →
    (schemaWalk w s).length = s.length ∧
    ∀ (k : Nat) (h : k < s.length),
      (schemaWalk w s)[k]? = some
        { name := s[k].1, hi := 31 - schemaSum (s.take k), lo := 32 - schemaSum (s.take k) - s[k].2, width := s[k].2,
          bits := extractBits w (32 - schemaSum (s.take k) - s[k].2) s[k].2 }

/-- R132. The widths are summed before the walk; a sum other than 32 ends the evaluation with no field. Of the built-in
schemas only the literal J layout reaches it, with sum 42. -/
def Obligations.SchemaWidthCheck : Prop :=
  (∀ (f : Format) (s : Schema),
    (schemaSum s = 32 → checkSchema f s = .ok ()) ∧
    (schemaSum s ≠ 32 → checkSchema f s = .err (.schemaWidthMismatch f (schemaSum s)))) ∧
  (∀ (jl : JLayout) (names : RegNames) (src : Src) (mode : Mode) (fmt : Option Format),
    ((decode jl names src mode fmt).status = .schemaWidthMismatch ↔
      (∃ w, numberToBits mode src = .ok w) ∧ fmt = some .j ∧ jl = .literal42) ∧
    ((decode jl names src mode fmt).status = .schemaWidthMismatch →
      (decode jl names src mode fmt).fields = [] ∧ (decode jl names src mode fmt).schemaSum = 42))

/-- R133. Extraction is a lossless partition: the fields' values reassemble to the word, as a concatenation and as the sum of
`raw_k * 2^lo_k`. -/
def Obligations.ExtractionIsLosslessPartition : Prop :=
  ∀ (w : Word) (s : Schema), schemaSum s = 32 →
    assembleWord s (rawValues w s) = w ∧
    bitsToNumber w = ((schemaWalk w s).map (fun e => bitsToNumber e.bits * 2 ^ e.lo)).sum

/-- R134. A field's raw value is `w[hi:lo]` read as an unsigned number, at most `2^W - 1`. -/
def Obligations.RawValueIsUnsignedSlice : Prop :=
  ∀ (w : Word) (s : Schema), schemaSum s = 32 → ∀ e ∈ schemaWalk w s, 1 ≤ e.width →
    bitsToNumber e.bits = slice w e.hi e.lo ∧ bitsToNumber e.bits ≤ 2 ^ e.width - 1

/-- R150. The resolver answers the table's entry for 0 to 31 and InvalidRegisterNumber for every larger number. -/
def Obligations.ResolverReadsTable : Prop :=
  ∀ (s : State) (i : BitVec 26),
    (∀ h : i.toNat ≤ 31,
      ∃ t, exec (.resolveReg i) s = .next t ∧ t.ret = .regName (.ok (s.regNames[i.toNat]'(Nat.lt_succ_of_le h)))) ∧
    (32 ≤ i.toNat →
      ∃ t, exec (.resolveReg i) s = .next t ∧ t.ret = .regName (.err (.invalidRegisterNumber i.toNat)))

/-- R151, R24. The four results the source fixes, for every admissible table, and the 32 results of the default table as R24
writes them out. The spec takes the other 28 names "from general knowledge, not in source" (92_eei_decisions.md D5); that a
block holds this table at reset is ResetOutputsAreOfItsInputs (log entry 8). -/
def Obligations.SourceFixedRegisterNames : Prop :=
  (∀ names : RegNames, NamesAdmissible names →
    resolveRegisterName names 0 = .ok ['$', 'z', 'e', 'r', 'o'] ∧ resolveRegisterName names 31 = .ok ['$', 'r', 'a'] ∧
    resolveRegisterName names 8 = .ok ['$', 't', '0'] ∧ resolveRegisterName names 14 = .ok ['$', 't', '6']) ∧
  (List.range 32).map (resolveRegisterName defaultRegNames) =
    ["$zero", "$at", "$v0", "$v1", "$a0", "$a1", "$a2", "$a3", "$t0", "$t1", "$t2", "$t3", "$t4", "$t5", "$t6", "$t7",
     "$s0", "$s1", "$s2", "$s3", "$s4", "$s5", "$s6", "$s7", "$t8", "$t9", "$k0", "$k1", "$gp", "$sp", "$fp", "$ra"].map
      (fun name => .ok name.toList)

/-- R152. Resolving is a pure read, and the default table's 32 names are distinct. -/
def Obligations.ResolverPureAndInjective : Prop :=
  (∀ (s t : State) (i : BitVec 26), exec (.resolveReg i) s = .next t →
    t = s.returning t.ret ∧ exec (.resolveReg i) t = .next t) ∧
  (∀ i j : Nat, i ≤ 31 → j ≤ 31 → resolveRegisterName defaultRegNames i = resolveRegisterName defaultRegNames j → i = j)

/-- R171. DECODE.R: the six fields of the word, each resolved; the status is FieldIndexOutOfRange exactly when `w[31]` or
`w[5]` is 1. An ingest fails only in mode 1, and then the record is InvalidDigit. -/
def Obligations.DecodeRFields : Prop :=
  ∀ (s : State) (mode : Mode),
    (∀ w, numberToBits mode s.src = .ok w →
      exec (.decodeR mode) s = .next (s.decoded
        { status := if w.getLsbD 31 || w.getLsbD 5 then .fieldIndexOutOfRange else .ok, word := w,
          fields := [fieldOf s.regNames w .op 31 26 6, fieldOf s.regNames w .rs 25 21 5,
                     fieldOf s.regNames w .rt 20 16 5, fieldOf s.regNames w .rd 15 11 5,
                     fieldOf s.regNames w .shamt 10 6 5, fieldOf s.regNames w .funct 5 0 6],
          badPos := 0, badDigit := 0, schemaSum := 0 })) ∧
    (∀ e, numberToBits mode s.src = .err e →
      mode = .binaryLikeDecimal ∧ ∃ p d, e = .invalidDigit p d ∧ exec (.decodeR mode) s = .next (s.decoded (raiseError e 0)))

/-- R172. DECODE.I: the four fields of the word; FieldIndexOutOfRange exactly when `w[31] = 1` or `w[15:5] != 0`. `offset`
is unsigned. -/
def Obligations.DecodeIFields : Prop :=
  ∀ (s : State) (mode : Mode),
    (∀ w, numberToBits mode s.src = .ok w →
      exec (.decodeI mode) s = .next (s.decoded
        { status := if w.getLsbD 31 = true ∨ w.extractLsb' 5 11 ≠ 0 then .fieldIndexOutOfRange else .ok, word := w,
          fields := [fieldOf s.regNames w .op 31 26 6, fieldOf s.regNames w .rs 25 21 5,
                     fieldOf s.regNames w .rt 20 16 5, fieldOf s.regNames w .offset 15 0 16],
          badPos := 0, badDigit := 0, schemaSum := 0 })) ∧
    (∀ e, numberToBits mode s.src = .err e →
      mode = .binaryLikeDecimal ∧ ∃ p d, e = .invalidDigit p d ∧ exec (.decodeI mode) s = .next (s.decoded (raiseError e 0)))

/-- R173. The three DECODE.J rows, one per `J_LAYOUT`: four fields under SPLIT16, two under CANONICAL26, and under LITERAL42
SchemaWidthMismatch with sum 42 and no field. That each row decodes with its own layout in a state of any `jLayout`, so that
the statement also covers rows that the block of that state does not offer, is the model's choice (log entry 9, unsafe for
such a row); JEvaluationPerLayout says what the block's own layout gives. -/
def Obligations.DecodeJFieldsPerLayout : Prop :=
  ∀ (s : State) (mode : Mode),
    (∀ w, numberToBits mode s.src = .ok w →
      exec (.decodeJ mode) s = .next (s.decoded
        { status := if w.getLsbD 31 = true ∨ w.extractLsb' 5 11 ≠ 0 then .fieldIndexOutOfRange else .ok, word := w,
          fields := [fieldOf s.regNames w .op 31 26 6, fieldOf s.regNames w .rs 25 21 5,
                     fieldOf s.regNames w .rt 20 16 5, fieldOf s.regNames w .address 15 0 16],
          badPos := 0, badDigit := 0, schemaSum := 0 }) ∧
      exec (.decodeJCanonical26 mode) s = .next (s.decoded
        { status := if w.getLsbD 31 = true ∨ w.extractLsb' 5 21 ≠ 0 then .fieldIndexOutOfRange else .ok, word := w,
          fields := [fieldOf s.regNames w .op 31 26 6, fieldOf s.regNames w .address 25 0 26],
          badPos := 0, badDigit := 0, schemaSum := 0 }) ∧
      exec (.decodeJLiteral42 mode) s = .next (s.decoded
        { status := .schemaWidthMismatch, word := w, fields := [], badPos := 0, badDigit := 0, schemaSum := 42 })) ∧
    (∀ e, numberToBits mode s.src = .err e →
      mode = .binaryLikeDecimal ∧ ∃ p d, e = .invalidDigit p d ∧
        exec (.decodeJ mode) s = .next (s.decoded (raiseError e 0)) ∧
        exec (.decodeJCanonical26 mode) s = .next (s.decoded (raiseError e 0)) ∧
        exec (.decodeJLiteral42 mode) s = .next (s.decoded (raiseError e 0)))

/-- R173. An evaluation with `fmt = 10` by the block's own `J_LAYOUT`: four fields under SPLIT16, two under CANONICAL26, and
under LITERAL42 SchemaWidthMismatch with sum 42 and no field; InvalidDigit only with `mode = 1`. -/
def Obligations.JEvaluationPerLayout : Prop :=
  ∀ s : State, s.alone = none → s.fmt = 0b10 →
    (∀ w, numberToBits (modeOfBit s.mode) s.src = .ok w →
      step s = .next (s.decoded
        (match s.jLayout with
         | .split16 =>
           { status := if w.getLsbD 31 = true ∨ w.extractLsb' 5 11 ≠ 0 then .fieldIndexOutOfRange else .ok, word := w,
             fields := [fieldOf s.regNames w .op 31 26 6, fieldOf s.regNames w .rs 25 21 5,
                        fieldOf s.regNames w .rt 20 16 5, fieldOf s.regNames w .address 15 0 16],
             badPos := 0, badDigit := 0, schemaSum := 0 }
         | .canonical26 =>
           { status := if w.getLsbD 31 = true ∨ w.extractLsb' 5 21 ≠ 0 then .fieldIndexOutOfRange else .ok, word := w,
             fields := [fieldOf s.regNames w .op 31 26 6, fieldOf s.regNames w .address 25 0 26],
             badPos := 0, badDigit := 0, schemaSum := 0 }
         | .literal42 =>
           { status := .schemaWidthMismatch, word := w, fields := [], badPos := 0, badDigit := 0, schemaSum := 42 }))) ∧
    (∀ e, numberToBits (modeOfBit s.mode) s.src = .err e →
      s.mode = 1 ∧ ∃ p d, e = .invalidDigit p d ∧
        step s = .next (s.decoded
          { status := .invalidDigit, word := 0, fields := [], badPos := p, badDigit := d, schemaSum := 0 }))

/-- R83, R202. RESERVED.fmt11: InvalidFormat after a good ingest, with the ingested word, no field and no other detail; a bad
ingest is InvalidDigit first. `fmt = 11` selects this row in either mode. -/
def Obligations.ReservedFormatIsInvalidFormat : Prop :=
  ∀ (s : State) (mode : Mode),
    (∀ w, numberToBits mode s.src = .ok w →
      exec (.reservedFmt11 mode) s = .next (s.decoded
        { status := .invalidFormat, word := w, fields := [], badPos := 0, badDigit := 0, schemaSum := 0 })) ∧
    (∀ p d, numberToBits mode s.src = .err (.invalidDigit p d) →
      exec (.reservedFmt11 mode) s = .next (s.decoded
        { status := .invalidDigit, word := 0, fields := [], badPos := p, badDigit := d, schemaSum := 0 })) ∧
    (s.alone = none → s.fmt = 0b11 → modeOfBit s.mode = mode → step s = exec (.reservedFmt11 mode) s)

/-- R203. The status is the first error in the order of the Decoder's steps; a failed ingest does not look at the format;
every field in error is marked; the recorded digit is the least significant offending one. -/
def Obligations.ErrorPriority : Prop :=
  ∀ (jl : JLayout) (names : RegNames) (src : Src) (mode : Mode) (fmt : Option Format),
    (decode jl names src mode fmt).status =
      (match numberToBits mode src with
       | .err _ => .invalidDigit
       | .ok w =>
         match fmt with
         | none => .invalidFormat
         | some f =>
           if schemaSum (schema f jl) ≠ 32 then .schemaWidthMismatch
           else if ∃ v ∈ rawValues w (schema f jl), 32 ≤ v then .fieldIndexOutOfRange
           else .ok) ∧
    (∀ fd ∈ (decode jl names src mode fmt).fields, fd.value = .fieldErr fd.name fd.raw ↔ 32 ≤ fd.raw) ∧
    (∀ e, numberToBits mode src = .err e →
      (∀ jl' fmt', decode jl' names src mode fmt' = decode jl names src mode fmt) ∧
      ∃ p, e = .invalidDigit p (digit src.toNat p) ∧ 2 ≤ digit src.toNat p ∧ ∀ j, j < p → digit src.toNat j ≤ 1)

/-- R174. Every field's value, register field or not: the table's name for a raw value of 0 to 31, the field's error for 32
or more. -/
def Obligations.FieldValueByRawValue : Prop :=
  ∀ (jl : JLayout) (names : RegNames) (src : Src) (mode : Mode) (fmt : Option Format),
    ∀ fd ∈ (decode jl names src mode fmt).fields,
      (∀ h : fd.raw ≤ 31, fd.value = .name (names[fd.raw]'(Nat.lt_succ_of_le h))) ∧
      (32 ≤ fd.raw → fd.value = .fieldErr fd.name fd.raw)

/-- R175. An out-of-range field does not stop the decode: every field of the schema is reported with its raw value, the raw
value is on `fraw_k`, and the status is FieldIndexOutOfRange exactly when at least one is in error. -/
def Obligations.OutOfRangeFieldDoesNotStop : Prop :=
  ∀ (jl : JLayout) (names : RegNames) (src : Src) (mode : Mode) (f : Format) (w : Word),
    numberToBits mode src = .ok w → schemaSum (schema f jl) = 32 →
      (decode jl names src mode (some f)).fields.map (fun fd => fd.raw) = rawValues w (schema f jl) ∧
      (∀ fd ∈ (decode jl names src mode (some f)).fields, ∀ h : fd.raw ≤ 31,
        fd.value = .name (names[fd.raw]'(Nat.lt_succ_of_le h))) ∧
      ((decode jl names src mode (some f)).status = .fieldIndexOutOfRange ↔
        ∃ fd ∈ (decode jl names src mode (some f)).fields, fd.value = .fieldErr fd.name fd.raw) ∧
      ∀ k v : Nat, (rawValues w (schema f jl))[k]? = some v →
        (outputsOf (decode jl names src mode (some f))).slots[k]?.map (fun x : Slot => x.fraw.toNat) = some v

/-- R176. A decode that reaches its fields has exactly the schema's entries in schema order: 6, 4, 4 or 2 of them on
`nfields`; any other has none. -/
def Obligations.FieldCountAndOrder : Prop :=
  ∀ (jl : JLayout) (names : RegNames) (src : Src) (mode : Mode) (fmt : Option Format),
    ((decode jl names src mode fmt).status = .ok ∨ (decode jl names src mode fmt).status = .fieldIndexOutOfRange →
      ∃ f, fmt = some f ∧
        (decode jl names src mode fmt).fields.map (fun fd => fd.name) = (schema f jl).map Prod.fst ∧
        (outputsOf (decode jl names src mode fmt)).nfields =
          (match f, jl with
           | .r, _ => 6
           | .i, _ => 4
           | .j, .split16 => 4
           | .j, .canonical26 => 2
           | .j, .literal42 => 0)) ∧
    ((decode jl names src mode fmt).status ≠ .ok → (decode jl names src mode fmt).status ≠ .fieldIndexOutOfRange →
      (decode jl names src mode fmt).fields = [] ∧ (outputsOf (decode jl names src mode fmt)).nfields = 0)

/-- R178. The zero word: in either mode and every format with a layout, every field has raw value 0 and the name `$zero`, and
the status is OK. -/
def Obligations.ZeroWordIsAllZeroRegister : Prop :=
  ∀ (jl : JLayout) (names : RegNames) (mode : Mode) (f : Format),
    NamesAdmissible names → ¬(f = .j ∧ jl = .literal42) →
      (decode jl names 0 mode (some f)).status = .ok ∧
      (decode jl names 0 mode (some f)).fields.length = (schema f jl).length ∧
      ∀ fd ∈ (decode jl names 0 mode (some f)).fields, fd.raw = 0 ∧ fd.value = .name ['$', 'z', 'e', 'r', 'o']

/-- R81. Which fields can be out of range: `op` and `funct` exactly by their bit 5, `offset` and `address` exactly by their
bits above 4, the 5-bit fields never. -/
def Obligations.WhichFieldsLeaveTheTable : Prop :=
  ∀ (w : Word) (f : Format) (jl : JLayout), schemaSum (schema f jl) = 32 →
    ∀ e ∈ schemaWalk w (schema f jl),
      32 ≤ bitsToNumber e.bits ↔
        (match e.name with
         | .op => w.getLsbD 31 = true
         | .funct => w.getLsbD 5 = true
         | .offset => w.extractLsb' 5 11 ≠ 0
         | .address => if jl = .canonical26 then w.extractLsb' 5 21 ≠ 0 else w.extractLsb' 5 11 ≠ 0
         | .rs => False
         | .rt => False
         | .rd => False
         | .shamt => False)

/-- R32. On the ports of every decode, slot `k` is used exactly when `k < nfields`; the used ones carry the fields in order
from slot 0, and every output of the others is at its unused value. -/
def Obligations.SlotsFilledInOrder : Prop :=
  ∀ (jl : JLayout) (names : RegNames) (src : Src) (mode : Mode) (fmt : Option Format) (k : Fin 6),
    (outputsOf (decode jl names src mode fmt)).nfields.toNat = (decode jl names src mode fmt).fields.length ∧
    (k.val < (outputsOf (decode jl names src mode fmt)).nfields.toNat →
      (decode jl names src mode fmt).fields[k.val]?.map usedSlot =
        some (outputsOf (decode jl names src mode fmt)).slots[k]) ∧
    ((outputsOf (decode jl names src mode fmt)).nfields.toNat ≤ k.val →
      (outputsOf (decode jl names src mode fmt)).slots[k] =
        { fname := 0b1111, fhi := 0, flo := 0, fraw := 0, fok := 0, freg := 0, freglen := 0 })

/-- R34. A name of at most 5 ASCII characters on `freg_k`: character `j` in bits `8j+7` to `8j`, zero bytes above;
its length on `freglen_k`. -/
def Obligations.NameBytesOnPort : Prop :=
  (∀ cs : Text, cs.length ≤ 5 → (∀ c ∈ cs, c.toNat < 128) →
    (∀ (j : Nat) (h : j < cs.length), ((encodeName cs).extractLsb' (8 * j) 8).toNat = cs[j].toNat) ∧
    ∀ j, cs.length ≤ j → j < 5 → (encodeName cs).extractLsb' (8 * j) 8 = 0) ∧
  (∀ (fd : FieldOut) (cs : Text), fd.value = .name cs → cs.length ≤ 5 →
    (usedSlot fd).freg = encodeName cs ∧ (usedSlot fd).freglen.toNat = cs.length) ∧
  encodeName ['$', 'z', 'e', 'r', 'o'] = 0x6F72657A24#40 ∧ encodeName ['$', 't', '0'] = 0x0000307424#40

/-- R201. The result codes, and the cause of each on the `status` port; 5, 6 and 7 are never seen there. -/
def Obligations.StatusCodesAndCauses : Prop :=
  ∀ (jl : JLayout) (names : RegNames) (src : Src) (mode : Mode) (fmt : Option Format),
    ((outputsOf (decode jl names src mode fmt)).status = 1 ↔
      mode = .binaryLikeDecimal ∧ ∃ i, 2 ≤ digit src.toNat i) ∧
    ((outputsOf (decode jl names src mode fmt)).status = 2 ↔
      fmt = none ∧ ∃ w, numberToBits mode src = .ok w) ∧
    ((outputsOf (decode jl names src mode fmt)).status = 3 ↔
      (fmt = some .j ∧ jl = .literal42) ∧ ∃ w, numberToBits mode src = .ok w) ∧
    ((outputsOf (decode jl names src mode fmt)).status = 4 ↔
      ∃ fd ∈ (decode jl names src mode fmt).fields, 32 ≤ fd.raw) ∧
    ((outputsOf (decode jl names src mode fmt)).status = 0 ↔
      (decode jl names src mode fmt).fields ≠ [] ∧ ∀ fd ∈ (decode jl names src mode fmt).fields, fd.raw ≤ 31) ∧
    (outputsOf (decode jl names src mode fmt)).status.toNat ≤ 4 ∧ statusCode .invalidRegisterNumber = 5

/-- R202. What each error records, and on which ports: InvalidDigit the position and the value of the least significant
offending digit; InvalidFormat nothing; SchemaWidthMismatch the format and the sum; FieldIndexOutOfRange the field's name,
range and raw value; InvalidRegisterNumber the index. -/
def Obligations.ErrorRecordsOnPorts : Prop :=
  ∀ (jl : JLayout) (names : RegNames) (src : Src) (mode : Mode) (fmt : Option Format),
    (∀ p d, numberToBits mode src = .err (.invalidDigit p d) →
      d = digit src.toNat p ∧ (∀ j, j < p → digit src.toNat j ≤ 1) ∧ p ≤ 19 ∧ 2 ≤ d ∧ d ≤ 9 ∧
      (outputsOf (decode jl names src mode fmt)).badPos.toNat = p ∧
      (outputsOf (decode jl names src mode fmt)).badDigit.toNat = d ∧
      (outputsOf (decode jl names src mode fmt)).word = 0 ∧ (outputsOf (decode jl names src mode fmt)).nfields = 0) ∧
    (∀ w, numberToBits mode src = .ok w →
      (outputsOf (decode jl names src mode fmt)).word = w ∧
      (fmt = none → (outputsOf (decode jl names src mode fmt)).nfields = 0) ∧
      (fmt = some .j → jl = .literal42 →
        checkSchema .j (schema .j jl) = .err (.schemaWidthMismatch .j 42) ∧
        (outputsOf (decode jl names src mode fmt)).schemaSum = 42 ∧ (outputsOf (decode jl names src mode fmt)).nfields = 0)) ∧
    (∀ (k : Fin 6) (fd : FieldOut), (decode jl names src mode fmt).fields[k.val]? = some fd → 32 ≤ fd.raw →
      fd.value = .fieldErr fd.name fd.raw ∧
      (outputsOf (decode jl names src mode fmt)).slots[k].fname = fieldCode fd.name ∧
      (outputsOf (decode jl names src mode fmt)).slots[k].fhi.toNat = fd.hi ∧
      (outputsOf (decode jl names src mode fmt)).slots[k].flo.toNat = fd.lo ∧
      (outputsOf (decode jl names src mode fmt)).slots[k].fraw.toNat = fd.raw ∧
      (outputsOf (decode jl names src mode fmt)).slots[k].fok = 0 ∧
      (outputsOf (decode jl names src mode fmt)).slots[k].freg = 0 ∧
      (outputsOf (decode jl names src mode fmt)).slots[k].freglen = 0) ∧
    (∀ i : Nat, 32 ≤ i → resolveRegisterName names i = .err (.invalidRegisterNumber i))

/-- R20, R177. A step changes none of its inputs, so evaluating again gives the same state. -/
def Obligations.EvaluationIsRepeatable : Prop :=
  ∀ s t : State, step s = .next t → step t = .next t

/-- R20, R60. Nothing an evaluation leaves behind is read by a later one: after any step, presenting new inputs gives what
presenting them at once would have given. -/
def Obligations.NoStateCarriedOver : Prop :=
  ∀ (s t : State) (src : Src) (mode : BitVec 1) (fmt : BitVec 2),
    step s = .next t → step (t.present src mode fmt) = step (s.present src mode fmt)

/-- R177. The same inputs and parameters always give the same result, whatever the ports showed before, and an evaluation
changes none of them. -/
def Obligations.OutputsDependOnInputsOnly : Prop :=
  ∀ s s' : State, s.alone = none → SameInputs s s' →
    ∃ t t', step s = .next t ∧ step s' = .next t' ∧ t.outputs = t'.outputs ∧ t.ret = t'.ret ∧ SameInputs s t

/-- R36, R170, R231. An evaluation drives the output ports with the combinational function of the inputs, and they stay that
function of the inputs until new ones are presented. -/
def Obligations.EvaluationDrivesLiveOutputs : Prop :=
  ∀ s t : State, s.alone = none → step s = .next t → t.outputs = s.liveOutputs ∧ t.outputs = t.liveOutputs

/-- R20, R23, R25, R31. The frame of every operation: the parameters and the inputs stay; an operation with no control word
of its own leaves every output port (the model's choice, log entry 4); an evaluation leaves a Decoder's record of its source on the ports. -/
def Obligations.OperationFrame : Prop :=
  ∀ (i : Instr) (s t : State), exec i s = .next t →
    SameInputs s t ∧ (encode i = none → t.outputs = s.outputs) ∧
    (encode i ≠ none →
      ∃ jl mode fmt, t.outputs = outputsOf (decode jl s.regNames s.src mode fmt) ∧
        t.ret = .decode (decode jl s.regNames s.src mode fmt))

/-- R208, R82, R200. Every input is accepted: an evaluation of the ports always has a next state, no step faults, and the
only refusal is of an extraction on its own that leaves the word (R130). -/
def Obligations.EveryInputHasAResult : Prop :=
  (∀ s : State, s.alone = none → ∃ t, step s = .next t) ∧
  (∀ s : State, (∃ t, step s = .next t) ∨
    ∃ b lo width, s.alone = some (.extractField b lo width) ∧ ¬FieldRangeOk lo width ∧
      step s = .refused (.extractOutsideWord lo width))

/-- R71, R78. A step runs the operation the control ports select, or the one asked for on its own (log entry 2, the model's
own input). -/
def Obligations.StepRunsSelectedOperation : Prop :=
  ∀ s : State,
    (s.alone = none → step s = exec (decodeControl s.jLayout (controlWord s.mode s.fmt)) s) ∧
    (∀ i, s.alone = some i → step s = exec i s)

/-- R78, R83, R75. The control word's code, both ways: decoding an operation's control word gives the operation back in a
block that offers it, and every control word is the code of the operation it decodes to. -/
def Obligations.ControlWordRoundTrip : Prop :=
  ∀ jl : JLayout,
    (∀ i c, offeredBy jl i = true → encode i = some c → decodeControl jl c = i) ∧
    (∀ c, offeredBy jl (decodeControl jl c) = true ∧ encode (decodeControl jl c) = some c)

/-- R78, R75, R83. All eight control words, written out bit by bit (`ctl[2]` is `mode`, `ctl[1:0]` is `fmt`), decode to their
rows in a block of each layout, and so does a table word at the default layout. That the decoder reads a byte, for the default
layout, and rejects one with a fourth or higher bit set is the model's choice (log entry 10). -/
def Obligations.TabledControlWordsDecode : Prop :=
  (∀ jl : JLayout,
    decodeControl jl 0b000 = .decodeR .binary ∧ decodeControl jl 0b100 = .decodeR .binaryLikeDecimal ∧
    decodeControl jl 0b001 = .decodeI .binary ∧ decodeControl jl 0b101 = .decodeI .binaryLikeDecimal ∧
    decodeControl jl 0b011 = .reservedFmt11 .binary ∧ decodeControl jl 0b111 = .reservedFmt11 .binaryLikeDecimal) ∧
  (decodeControl .split16 0b010 = .decodeJ .binary ∧ decodeControl .split16 0b110 = .decodeJ .binaryLikeDecimal) ∧
  (decodeControl .canonical26 0b010 = .decodeJCanonical26 .binary ∧
    decodeControl .canonical26 0b110 = .decodeJCanonical26 .binaryLikeDecimal) ∧
  (decodeControl .literal42 0b010 = .decodeJLiteral42 .binary ∧
    decodeControl .literal42 0b110 = .decodeJLiteral42 .binaryLikeDecimal) ∧
  [0b000, 0b001, 0b010, 0b011, 0b100, 0b101, 0b110, 0b111].map (decodeTableWord 8) =
    [some (.decodeR .binary), some (.decodeI .binary), some (.decodeJ .binary), some (.reservedFmt11 .binary),
     some (.decodeR .binaryLikeDecimal), some (.decodeI .binaryLikeDecimal), some (.decodeJ .binaryLikeDecimal),
     some (.reservedFmt11 .binaryLikeDecimal)] ∧
  ∀ w, 8 ≤ w → w < 256 → decodeTableWord 8 w = none

/-- R78. A control word placed with `withFetchWord` is the one the next step evaluates (log entry 10). -/
def Obligations.PlacedControlWordRuns : Prop :=
  ∀ (s : State) (nbits w : Nat) (i : Instr), decodeTableWord nbits w = some i →
    step (s.withFetchWord nbits w) = exec i (s.withFetchWord nbits w)

/-- R72 to R76, R133, R79. Encode and decode of the instruction word agree, at the ports: a word assembled from field values
that fit their widths, presented in the format, comes back with exactly those values on `fraw_0`, `fraw_1`, and so on. -/
def Obligations.AssembledWordDecodesToItsFields : Prop :=
  ∀ (s : State) (f : Format) (vs : List Nat),
    schemaSum (schema f s.jLayout) = 32 → List.Forall₂ (fun fd v => v < 2 ^ fd.2) (schema f s.jLayout) vs →
      ∃ t, step (s.presentWord (assembleWord (schema f s.jLayout) vs) (formatCode f)) = .next t ∧
        t.outputs.word = assembleWord (schema f s.jLayout) vs ∧ t.outputs.nfields.toNat = vs.length ∧
        ∀ k, k < vs.length → t.outputs.slots[k]?.map (fun x : Slot => x.fraw.toNat) = vs[k]?

/-- R131, R133. The same for every schema whose widths sum to 32, at the walk. -/
def Obligations.WalkInvertsAssembly : Prop :=
  ∀ (s : Schema) (vs : List Nat), schemaSum s = 32 → List.Forall₂ (fun fd v => v < 2 ^ fd.2) s vs →
    rawValues (assembleWord s vs) s = vs

/-- R25, R31, R32, R34, R77, R201, R202. The machine's invariant is kept by every step: an admissible name table whose names
fit their ports, and output ports at a legal value (the used slots partition the word, carry its slices, and agree with the
status; the error details stand with their status only) that agree with the last record. That names fit the ports is the
model's premise (log entry 12). -/
def Obligations.StepKeepsInvariant : Prop :=
  ∀ s t : State, s.Inv → step s = .next t → t.Inv

/-- The invariant holds at reset (R36). The reset values are the model's: the inputs (log entry 5), the outputs as the
function of these inputs (log entry 6), the layout (log entry 7) and the default table (log entry 8). -/
def Obligations.ResetMeetsInvariant : Prop := State.reset.Inv

/-- R36, R230, R231. At reset the outputs are already the function of the inputs that an evaluation computes, and the tables
hold their defaults. The reset values are the model's: the inputs (log entry 5), the outputs as the function of these inputs
(log entry 6), `J_LAYOUT`, to which the spec gives a default and no reset value (log entry 7), and the default table of
`REG_NAMES` (log entry 8). -/
def Obligations.ResetOutputsAreOfItsInputs : Prop :=
  (∃ t, step State.reset = .next t ∧ t.outputs = State.reset.outputs) ∧ State.reset.outputs = State.reset.liveOutputs ∧
  State.reset.jLayout = .split16 ∧ State.reset.regNames = defaultRegNames

/-- R231. No evaluation of the ports reads what its outputs held before: whatever they are, on whatever inputs, it gives the
outputs of the combinational block for the inputs; and so does the first evaluation of an implementation whose registered
outputs hold the free value `Config.heldOutputs` (log entry 6), on whatever inputs are presented. -/
def Obligations.FirstEvaluationReplacesHeldOutputs : Prop :=
  (∀ (s : State) (o : Outputs), s.alone = none →
    step { s with outputs := o } = step s ∧ ∃ t, step { s with outputs := o } = .next t ∧ t.outputs = s.liveOutputs) ∧
  ∀ (src : Src) (mode : BitVec 1) (fmt : BitVec 2),
    ∃ t, step (State.resetRegistered.present src mode fmt) = .next t ∧
      t.outputs = (State.resetRegistered.present src mode fmt).liveOutputs

/-- R181, R201. The rendering of an external run (a function of the record, log entry 18). A run whose ingest gives `w` under a
schema of sum 32 emits one line per schema field, in schema order: the field's name, one space, the register name or the raw
value in decimal, one line feed; any other run emits nothing. The exit code is the status code, and 0 exactly when every field
resolved. The decimal of a field in error reads back as its raw value, has no `$`, and is no name of an admissible table. -/
def Obligations.RenderingTellsErrorsFromNames : Prop :=
  (∀ (jl : JLayout) (names : RegNames) (c : ExternalConfig),
    (∀ w, numberToBits (if c.numberIsBinary then .binaryLikeDecimal else .binary) c.number = .ok w →
      (runExternal jl names c).text =
        if schemaSum (schema c.format jl) = 32 then
          (List.zipWith (fun (name : FieldName) (raw : Nat) =>
            fieldText name ++ [' '] ++ (if h : raw ≤ 31 then names[raw] else Nat.toDigits 10 raw) ++ ['\n'])
            ((schema c.format jl).map Prod.fst) (rawValues w (schema c.format jl))).flatten
        else []) ∧
    (∀ e, numberToBits (if c.numberIsBinary then .binaryLikeDecimal else .binary) c.number = .err e →
      (runExternal jl names c).text = []) ∧
    (runExternal jl names c).exitCode =
      (match (decode jl names c.number (if c.numberIsBinary then .binaryLikeDecimal else .binary) (some c.format)).status with
       | .ok => 0
       | .invalidDigit => 1
       | .invalidFormat => 2
       | .schemaWidthMismatch => 3
       | .fieldIndexOutOfRange => 4
       | .invalidRegisterNumber => 5) ∧
    ((runExternal jl names c).exitCode = 0 ↔
      (decode jl names c.number (if c.numberIsBinary then .binaryLikeDecimal else .binary) (some c.format)).fields ≠ [] ∧
      ∀ fd ∈ (decode jl names c.number (if c.numberIsBinary then .binaryLikeDecimal else .binary) (some c.format)).fields,
        ∃ n, fd.value = .name n)) ∧
  (∀ (name : FieldName) (raw : Nat),
    '$' ∉ renderValue (.fieldErr name raw) ∧
    (renderValue (.fieldErr name raw)).foldl (fun a ch => a * 10 + (ch.toNat - 48)) 0 = raw ∧
    ∀ names : RegNames, NamesAdmissible names → ∀ i : Fin 32, renderValue (.fieldErr name raw) ≠ names[i])

/-- R180. The configuration inputs on the ports, and the external program as one evaluation of them, rendered. -/
def Obligations.ConfigurationMapsToPorts : Prop :=
  ∀ (s : State) (c : ExternalConfig),
    (s.configure c).src = c.number ∧
    (s.configure c).fmt = (match c.format with | .r => 0b00 | .i => 0b01 | .j => 0b10) ∧
    (s.configure c).mode = (if c.numberIsBinary then 1 else 0) ∧
    ∃ r, step (s.configure c) = .next ((s.configure c).decoded r) ∧ render r = runExternal s.jLayout s.regNames c

/-- R75. Under SPLIT16 a J decode gives the raw values and ranges of an I decode of the same source, slot by slot; only the
name of slot 3 differs. -/
def Obligations.SplitJMatchesI : Prop :=
  ∀ (names : RegNames) (src : Src) (mode : Mode),
    (decode .split16 names src mode (some .j)).fields.map (fun fd => (fd.hi, fd.lo, fd.width, fd.raw)) =
      (decode .split16 names src mode (some .i)).fields.map (fun fd => (fd.hi, fd.lo, fd.width, fd.raw)) ∧
    (decode .split16 names src mode (some .j)).status = (decode .split16 names src mode (some .i)).status ∧
    (∀ e, numberToBits mode src = .err e →
      decode .split16 names src mode (some .j) = decode .split16 names src mode (some .i)) ∧
    (∀ w, numberToBits mode src = .ok w →
      (outputsOf (decode .split16 names src mode (some .j))).slots[3] =
        { (outputsOf (decode .split16 names src mode (some .i))).slots[3] with fname := 0b0111 } ∧
      ∀ k : Fin 6, k ≠ 3 →
        (outputsOf (decode .split16 names src mode (some .j))).slots[k] =
          (outputsOf (decode .split16 names src mode (some .i))).slots[k])

/-- R100, R233. In binary mode the source bits above bit 31 are dropped without a trace: two sources with the same low 32
bits give the same record. -/
def Obligations.HighSourceBitsLeaveNoTrace : Prop :=
  ∀ (jl : JLayout) (names : RegNames) (src src' : Src) (fmt : Option Format),
    src.extractLsb' 0 32 = src'.extractLsb' 0 32 →
      decode jl names src .binary fmt = decode jl names src' .binary fmt

/-- R77. The widths of every schema sum to 32, but for the literal J layout, whose sum is 42. -/
def Obligations.SchemaWidthsSumTo32 : Prop :=
  ∀ (f : Format) (jl : JLayout), schemaSum (schema f jl) = if f = .j ∧ jl = .literal42 then 42 else 32

/-- R70, R71, R82. Every one of the 2^32 words is accepted under every format with a layout, whatever its `op`: the caller's
format is used, and the word shows whole on its port. -/
def Obligations.EveryWordAcceptedUnderEveryFormat : Prop :=
  ∀ (s : State) (w : Word) (f : Format), schemaSum (schema f s.jLayout) = 32 →
    ∃ t, step (s.presentWord w (formatCode f)) = .next t ∧ t.outputs.word = w ∧
      (t.outputs.status = 0 ∨ t.outputs.status = 4) ∧ t.outputs.nfields.toNat = (schema f s.jLayout).length

/-- R33. The field-name codes and strings, and what the `fname` ports of a decode can show: a field's code on a used slot,
`1111` on an unused one, `1000` to `1110` never. -/
def Obligations.FieldNameCodesOnPorts : Prop :=
  [FieldName.op, .rs, .rt, .rd, .shamt, .funct, .offset, .address].map (fun n => ((fieldCode n).toNat, String.ofList (fieldText n))) =
    [(0, "op"), (1, "rs"), (2, "rt"), (3, "rd"), (4, "shamt"), (5, "funct"), (6, "offset"), (7, "address")] ∧
  ∀ (jl : JLayout) (names : RegNames) (src : Src) (mode : Mode) (fmt : Option Format) (k : Fin 6),
    (outputsOf (decode jl names src mode fmt)).slots[k].fname =
      (match (decode jl names src mode fmt).fields[k.val]? with
       | some fd => fieldCode fd.name
       | none => 0b1111) ∧
    ((outputsOf (decode jl names src mode fmt)).slots[k].fname.toNat ≤ 7 ∨
      (outputsOf (decode jl names src mode fmt)).slots[k].fname = 0b1111)
end

