-- ==== Sys2Proof/Laws/Operands.lean ====
section
/-! SUPPORT. What the value-forming functions can answer: one lemma per case, cited in place of their definitions. -/

namespace Sys2Proof.Machine

/-- A bit write sets that bit, where the word has it, and leaves every other bit. -/
theorem setBit_getLsbD (w : Word) (i : Nat) (b : Bool) (j : Nat) :
    (setBit w i b).getLsbD j = if j = i ∧ i < 32 then b else w.getLsbD j := by
  by_cases hj : j < 32
  · rcases b with _ | _ <;> by_cases h : j = i <;>
      simp [setBit, h, hj, BitVec.getLsbD_and, BitVec.getLsbD_or] <;> grind
  · have hw : w.getLsbD j = false := BitVec.getLsbD_of_ge _ _ (by omega)
    have hs : (setBit w i b).getLsbD j = false := BitVec.getLsbD_of_ge _ _ (by omega)
    rw [hs, hw]
    split
    · omega
    · rfl

/-- An index in the table resolves to its entry (R150). -/
theorem resolveRegisterName_of_le (names : RegNames) {i : Nat} (h : i ≤ 31) :
    resolveRegisterName names i = .ok (names[i]'(Nat.lt_succ_of_le h)) := by
  simp [resolveRegisterName, h]

/-- An index outside the table is InvalidRegisterNumber (R150). -/
theorem resolveRegisterName_of_gt (names : RegNames) {i : Nat} (h : 31 < i) :
    resolveRegisterName names i = .err (.invalidRegisterNumber i) := by
  simp [resolveRegisterName, Nat.not_le.mpr h]

/-- A raw value of 31 or less is a name (R174). -/
theorem fieldValue_of_le (names : RegNames) (name : FieldName) {raw : Nat} (h : raw ≤ 31) :
    fieldValue names name raw = .name (names[raw]'(Nat.lt_succ_of_le h)) := by
  simp [fieldValue, resolveRegisterName_of_le names h]

/-- A raw value of 32 or more is the field's error (R174). -/
theorem fieldValue_of_gt (names : RegNames) (name : FieldName) {raw : Nat} (h : 31 < raw) :
    fieldValue names name raw = .fieldErr name raw := by
  simp [fieldValue, resolveRegisterName_of_gt names h]

/-- A field's value is a name exactly when its raw value is in the table (R174). -/
theorem valueOk_fieldValue (names : RegNames) (name : FieldName) (raw : Nat) :
    valueOk (fieldValue names name raw) = decide (raw ≤ 31) := by
  by_cases h : raw ≤ 31
  · simp [fieldValue_of_le names name h, valueOk, h]
  · simp [fieldValue_of_gt names name (Nat.not_le.mp h), valueOk, h]

/-- The walk has one entry per schema entry (R176). -/
@[simp] theorem schemaWalkFrom_length (w : Word) (offset : Nat) (s : Schema) :
    (schemaWalkFrom w offset s).length = s.length := by
  induction s generalizing offset with
  | nil => rfl
  | cons f rest ih => simp [schemaWalkFrom, ih]

/-- The schema check passes exactly on the sum 32 (R132). -/
theorem checkSchema_of_eq (f : Format) {s : Schema} (h : schemaSum s = 32) : checkSchema f s = .ok () := by
  simp [checkSchema, h]

/-- A schema of another sum is SchemaWidthMismatch (R132). -/
theorem checkSchema_of_ne (f : Format) {s : Schema} (h : schemaSum s ≠ 32) :
    checkSchema f s = .err (.schemaWidthMismatch f (schemaSum s)) := by
  simp [checkSchema, h]

/-- Of the built-in schemas only the literal J layout fails the check (R77, R132). -/
theorem schemaSum_schema (f : Format) (jl : JLayout) :
    schemaSum (schema f jl) = if f = .j ∧ jl = .literal42 then 42 else 32 := by
  cases f <;> cases jl <;> rfl

/-- A failed ingest ends the decode with word 0, whatever the format (R203). -/
theorem decode_of_err (jl : JLayout) (names : RegNames) {src : Src} {mode : Mode} (fmt : Option Format) {e : Error}
    (h : numberToBits mode src = .err e) : decode jl names src mode fmt = raiseError e 0 := by
  simp [decode, h]

/-- A good ingest goes on with its word (R170). -/
theorem decode_of_ok (jl : JLayout) (names : RegNames) {src : Src} {mode : Mode} (fmt : Option Format) {w : Word}
    (h : numberToBits mode src = .ok w) : decode jl names src mode fmt = decodeWord jl names fmt w := by
  simp [decode, h]

/-- The reserved format code is InvalidFormat (R83). -/
theorem decodeWord_none (jl : JLayout) (names : RegNames) (w : Word) :
    decodeWord jl names none w = raiseError .invalidFormat w := rfl

/-- A schema of sum 32 is walked (R170). -/
theorem decodeWord_of_eq {jl : JLayout} (names : RegNames) {f : Format} (w : Word) (h : schemaSum (schema f jl) = 32) :
    decodeWord jl names (some f) w = decodeFields names (schema f jl) w := by
  simp [decodeWord, checkSchema_of_eq f h]

/-- A schema of another sum is not walked (R132). -/
theorem decodeWord_of_ne {jl : JLayout} (names : RegNames) {f : Format} (w : Word) (h : schemaSum (schema f jl) ≠ 32) :
    decodeWord jl names (some f) w = raiseError (.schemaWidthMismatch f (schemaSum (schema f jl))) w := by
  simp [decodeWord, checkSchema_of_ne f h]

/-- NumberToBits fails only in binary-like decimal mode (R100, R101). -/
theorem numberToBits_err_mode {mode : Mode} {src : Src} {e : Error} (h : numberToBits mode src = .err e) :
    mode = .binaryLikeDecimal := by
  cases mode with
  | binary => simp [numberToBits] at h
  | binaryLikeDecimal => rfl

/-- A used index of the slots is its field's slot (R32). -/
theorem slotAt_of_lt {fields : List FieldOut} {k : Nat} (h : k < fields.length) :
    slotAt fields k = usedSlot fields[k] := by
  simp [slotAt, h]

/-- An index past the fields is an unused slot (R32). -/
theorem slotAt_of_ge {fields : List FieldOut} {k : Nat} (h : fields.length ≤ k) : slotAt fields k = unusedSlot := by
  simp [slotAt, List.getElem?_eq_none h]

end Sys2Proof.Machine
end

