-- ==== Sys2Proof/Laws/Decode.lean ====
section
/-! SUPPORT. What a decode can be, said once, and how its record stands on the slots. -/

namespace Sys2Proof.Machine

/-- The four ends of a decode: a failed ingest, the reserved format, the literal J layout, or the schema's fields (R170). -/
theorem decode_cases (jl : JLayout) (names : RegNames) (src : Src) (mode : Mode) (fmt : Option Format) :
    (∃ e, numberToBits mode src = .err e ∧ decode jl names src mode fmt = raiseError e 0) ∨
    (∃ w, numberToBits mode src = .ok w ∧
      ((fmt = none ∧ decode jl names src mode fmt = raiseError .invalidFormat w) ∨
       (fmt = some .j ∧ jl = .literal42 ∧ decode jl names src mode fmt = raiseError (.schemaWidthMismatch .j 42) w) ∨
       ∃ f, fmt = some f ∧ schemaSum (schema f jl) = 32 ∧
         decode jl names src mode fmt = decodeFields names (schema f jl) w)) := by
  rcases hn : numberToBits mode src with w | e
  · refine .inr ⟨w, rfl, ?_⟩
    rw [decode_of_ok _ _ _ hn]
    cases fmt with
    | none => exact .inl ⟨rfl, rfl⟩
    | some f =>
      have hs := schemaSum_schema f jl
      by_cases h : f = .j ∧ jl = .literal42
      · obtain ⟨rfl, rfl⟩ := h
        exact .inr (.inl ⟨rfl, rfl, rfl⟩)
      · rw [if_neg h] at hs
        exact .inr (.inr ⟨f, rfl, hs, decodeWord_of_eq _ _ hs⟩)
  · exact .inl ⟨e, rfl, decode_of_err _ _ _ hn⟩

/-- A walked schema has one field per entry (R176). -/
theorem decodeFields_length (names : RegNames) (s : Schema) (w : Word) :
    (decodeFields names s w).fields.length = s.length := by
  simp [decodeFields, schemaWalk]

/-- A field of a walked schema comes from an entry of the walk, and its value from its raw value (R170, R174). -/
theorem mem_decodeFields {names : RegNames} {s : Schema} {w : Word} {fd : FieldOut}
    (h : fd ∈ (decodeFields names s w).fields) :
    ∃ e ∈ schemaWalk w s, fd = fieldOut names e ∧ fd.raw = bitsToNumber e.bits ∧
      fd.value = fieldValue names fd.name fd.raw := by
  simp only [decodeFields, List.mem_map] at h
  obtain ⟨e, he, rfl⟩ := h
  exact ⟨e, he, rfl, rfl, rfl⟩

/-- Slot `k` of the ports is slot `k` of the record (R32). -/
theorem outputsOf_slots (r : DecodeResult) (k : Nat) (hk : k < 6) : (outputsOf r).slots[k] = slotAt r.fields k := by
  have : k = 0 ∨ k = 1 ∨ k = 2 ∨ k = 3 ∨ k = 4 ∨ k = 5 := by omega
  rcases this with rfl | rfl | rfl | rfl | rfl | rfl <;> rfl

end Sys2Proof.Machine
end

