-- ==== Sys2Proof/Laws/Loops.lean ====
section
/-! SUPPORT. What each loop of the value-forming functions computes, bit by bit or digit by digit. -/

namespace Sys2Proof.Machine

/-- The binary loop adds the bits of `v` at the indices from `i` up, as far as the word goes (R100). -/
theorem binaryLoop_getLsbD (fuel v i : Nat) (w : Word) (hv : v < 2 ^ fuel) (hw : ∀ j, i ≤ j → w.getLsbD j = false) (j : Nat) :
    (binaryLoop fuel v i w).getLsbD j = if i ≤ j ∧ j < 32 then v.testBit (j - i) else w.getLsbD j := by
  induction fuel generalizing v i w with
  | zero =>
    have : v = 0 := by simpa using hv
    subst this
    simp [binaryLoop]
    grind
  | succ n ih =>
    unfold binaryLoop
    split
    · subst v; simp; grind
    · rename_i h0
      rw [ih]
      · by_cases h32 : i < 32
        · simp only [h32, if_true, setBit_getLsbD]
          rcases Nat.lt_trichotomy j i with h | h | h
          · have : ¬ (i + 1 ≤ j ∧ j < 32) := by omega
            have h2 : ¬ (i ≤ j ∧ j < 32) := by omega
            have h3 : ¬ (j = i ∧ True) := by omega
            simp [h2, h3]
            omega
          · subst h
            simp [h32]
            grind
          · have h1 : i + 1 ≤ j := h
            have h2 : i ≤ j := by omega
            by_cases h3 : j < 32
            · simp [h1, h2, h3]
              rw [← Nat.testBit_succ, Nat.succ_eq_add_one, show j - (i+1) + 1 = j - i by omega]
            · simp [h3]; intro h; omega
        · simp only [h32, if_false]
          have h1 : ¬ (i ≤ j ∧ j < 32) := by omega
          have h2 : ¬ (i + 1 ≤ j ∧ j < 32) := by omega
          simp only [h1, h2, if_false]
      · rw [Nat.pow_succ] at hv; omega
      · intro j hj
        by_cases h32 : i < 32
        · simp only [h32, if_true, setBit_getLsbD]
          have : ¬ (j = i ∧ True) := by omega
          simp [this]
          rw [hw j (by omega)]
        · simp [h32]; exact hw j (by omega)

/-- The sum of the low `n` bits is the value modulo `2^n` (R102). -/
theorem bitSum_eq (b : Word) (n : Nat) : bitSum b n = b.toNat % 2 ^ n := by
  induction n with
  | zero => simp [bitSum, Nat.mod_one]
  | succ n ih =>
    rw [bitSum, ih, Nat.mod_pow_succ]
    simp only [BitVec.getLsbD, Nat.testBit_eq_decide_div_mod_eq]
    rcases Nat.mod_two_eq_zero_or_one (b.toNat / 2^n) with h | h <;> simp [h]

/-- An extracted vector holds the range's bits from index 0 and zeros above (R130). -/
theorem extractBits_getLsbD (b : Word) (lo n j : Nat) :
    (extractBits b lo n).getLsbD j = (decide (j < n ∧ j < 32) && b.getLsbD (lo + j)) := by
  unfold extractBits
  induction n with
  | zero => simp [extractLoop]
  | succ n ih =>
    rw [extractLoop, setBit_getLsbD, ih]
    by_cases h : j = n ∧ n < 32
    · simp [h]
    · rw [if_neg h]
      by_cases h1 : j < n ∧ j < 32
      · have h2 : j < n + 1 ∧ j < 32 := by omega
        simp [h1, h2]
      · have h2 : ¬(j < n + 1 ∧ j < 32) := by omega
        simp only [h1, h2]

/-- Dividing by ten drops the units digit. -/
theorem digit_succ (v k : Nat) : digit (v / 10) k = digit v (k + 1) := by
  unfold digit; rw [Nat.div_div_eq_div_mul, ← Nat.pow_succ']

/-- The units digit. -/
theorem digit_zero (v : Nat) : digit v 0 = v % 10 := by simp [digit]

/-- A number below `10^n` has no digit at `n` or above. -/
theorem digit_of_lt {v n k : Nat} (h : v < 10 ^ n) (hk : n ≤ k) : digit v k = 0 := by
  unfold digit
  rw [Nat.div_eq_of_lt (lt_of_lt_of_le h (Nat.pow_le_pow_right (by omega) hk))]

/-- The decimal loop on a numeral of zeros and ones adds its digits as bits from `i` up (R101). -/
theorem decimalLoop_ok (fuel v i : Nat) (w : Word) (hd : ∀ k, digit v k ≤ 1) (hv : v < 10 ^ fuel) (hw : ∀ j, i ≤ j → w.getLsbD j = false) :
    ∃ w', decimalLoop fuel v i w = .ok w' ∧
      ∀ j, w'.getLsbD j = if i ≤ j ∧ j < 32 then digit v (j - i) == 1 else w.getLsbD j := by
  induction fuel generalizing v i w with
  | zero =>
    have : v = 0 := by simpa using hv
    subst this
    refine ⟨w, rfl, ?_⟩
    intro j; split
    · rw [hw j (by omega)]; simp [digit]
    · rfl
  | succ n ih =>
    unfold decimalLoop
    split
    · subst v
      refine ⟨w, rfl, ?_⟩
      intro j; split
      · rw [hw j (by omega)]; simp [digit]
      · rfl
    · have h0 := hd 0
      rw [digit_zero] at h0
      rw [if_neg (by omega)]
      obtain ⟨w', h1, h2⟩ := ih (v / 10) (i + 1) (if i < 32 then setBit w i (v % 10 == 1) else w)
        (fun k => by rw [digit_succ]; exact hd _) (by rw [Nat.pow_succ] at hv; omega)
        (by
          intro j hj
          by_cases h32 : i < 32
          · simp only [h32, if_true, setBit_getLsbD]
            have : ¬ (j = i ∧ True) := by omega
            simp only [this, if_false]
            exact hw j (by omega)
          · simp only [h32, if_false]; exact hw j (by omega))
      refine ⟨w', h1, ?_⟩
      intro j
      rw [h2, digit_succ]
      by_cases h32 : i < 32
      · simp only [h32, if_true, setBit_getLsbD]
        rcases Nat.lt_trichotomy j i with h | h | h
        · simp [show ¬ (i + 1 ≤ j) by omega, show ¬ i ≤ j by omega, show ¬ j = i by omega]
        · subst h
          simp [h32, digit_zero]
        · simp only [show i + 1 ≤ j from h, show i ≤ j by omega, show ¬ j = i by omega, true_and, false_and, if_false,
            show j - (i + 1) + 1 = j - i by omega]
      · simp only [h32, if_false]
        simp [show ¬ (i ≤ j ∧ j < 32) by omega]; intros; omega

/-- The decimal loop stops at the least significant digit of 2 or more (R101). -/
theorem decimalLoop_err (fuel v i p : Nat) (w : Word) (hp : 2 ≤ digit v p) (hd : ∀ k, k < p → digit v k ≤ 1) (hv : v < 10 ^ fuel) :
    decimalLoop fuel v i w = .err (.invalidDigit (i + p) (digit v p)) := by
  induction fuel generalizing v i p w with
  | zero =>
    have : v = 0 := by simpa using hv
    subst this
    simp [digit] at hp
  | succ n ih =>
    unfold decimalLoop
    have hv0 : v ≠ 0 := by rintro rfl; simp [digit] at hp
    rw [if_neg hv0]
    cases p with
    | zero => rw [digit_zero] at hp ⊢; simp [hp]
    | succ p =>
      have h0 := hd 0 (by omega)
      rw [digit_zero] at h0
      rw [if_neg (by omega), ih (v / 10) (i + 1) p _ (by rw [digit_succ]; exact hp)
        (fun k hk => by rw [digit_succ]; exact hd _ (by omega)) (by rw [Nat.pow_succ] at hv; omega)]
      rw [digit_succ, show i + 1 + p = i + (p + 1) by omega]

end Sys2Proof.Machine
end

