-- ==== Sys2Proof/Laws/State.lean ====
section
/-! SUPPORT. One lemma per field of State per update, so that no later proof unfolds a record update. -/

namespace Sys2Proof.Machine

@[simp] theorem State.present_jLayout (s : State) (src : Src) (mode : BitVec 1) (fmt : BitVec 2) : (s.present src mode fmt).jLayout = s.jLayout := rfl
@[simp] theorem State.present_regNames (s : State) (src : Src) (mode : BitVec 1) (fmt : BitVec 2) : (s.present src mode fmt).regNames = s.regNames := rfl
@[simp] theorem State.present_src (s : State) (src : Src) (mode : BitVec 1) (fmt : BitVec 2) : (s.present src mode fmt).src = src := rfl
@[simp] theorem State.present_mode (s : State) (src : Src) (mode : BitVec 1) (fmt : BitVec 2) : (s.present src mode fmt).mode = mode := rfl
@[simp] theorem State.present_fmt (s : State) (src : Src) (mode : BitVec 1) (fmt : BitVec 2) : (s.present src mode fmt).fmt = fmt := rfl
@[simp] theorem State.present_alone (s : State) (src : Src) (mode : BitVec 1) (fmt : BitVec 2) : (s.present src mode fmt).alone = none := rfl
@[simp] theorem State.present_outputs (s : State) (src : Src) (mode : BitVec 1) (fmt : BitVec 2) : (s.present src mode fmt).outputs = s.outputs := rfl
@[simp] theorem State.present_ret (s : State) (src : Src) (mode : BitVec 1) (fmt : BitVec 2) : (s.present src mode fmt).ret = s.ret := rfl

@[simp] theorem State.request_jLayout (s : State) (i : Instr) : (s.request i).jLayout = s.jLayout := rfl
@[simp] theorem State.request_regNames (s : State) (i : Instr) : (s.request i).regNames = s.regNames := rfl
@[simp] theorem State.request_src (s : State) (i : Instr) : (s.request i).src = s.src := rfl
@[simp] theorem State.request_mode (s : State) (i : Instr) : (s.request i).mode = s.mode := rfl
@[simp] theorem State.request_fmt (s : State) (i : Instr) : (s.request i).fmt = s.fmt := rfl
@[simp] theorem State.request_alone (s : State) (i : Instr) : (s.request i).alone = some i := rfl
@[simp] theorem State.request_outputs (s : State) (i : Instr) : (s.request i).outputs = s.outputs := rfl
@[simp] theorem State.request_ret (s : State) (i : Instr) : (s.request i).ret = s.ret := rfl

@[simp] theorem State.returning_jLayout (s : State) (v : Returned) : (s.returning v).jLayout = s.jLayout := rfl
@[simp] theorem State.returning_regNames (s : State) (v : Returned) : (s.returning v).regNames = s.regNames := rfl
@[simp] theorem State.returning_src (s : State) (v : Returned) : (s.returning v).src = s.src := rfl
@[simp] theorem State.returning_mode (s : State) (v : Returned) : (s.returning v).mode = s.mode := rfl
@[simp] theorem State.returning_fmt (s : State) (v : Returned) : (s.returning v).fmt = s.fmt := rfl
@[simp] theorem State.returning_alone (s : State) (v : Returned) : (s.returning v).alone = s.alone := rfl
@[simp] theorem State.returning_outputs (s : State) (v : Returned) : (s.returning v).outputs = s.outputs := rfl
@[simp] theorem State.returning_ret (s : State) (v : Returned) : (s.returning v).ret = v := rfl

@[simp] theorem State.decoded_jLayout (s : State) (r : DecodeResult) : (s.decoded r).jLayout = s.jLayout := rfl
@[simp] theorem State.decoded_regNames (s : State) (r : DecodeResult) : (s.decoded r).regNames = s.regNames := rfl
@[simp] theorem State.decoded_src (s : State) (r : DecodeResult) : (s.decoded r).src = s.src := rfl
@[simp] theorem State.decoded_mode (s : State) (r : DecodeResult) : (s.decoded r).mode = s.mode := rfl
@[simp] theorem State.decoded_fmt (s : State) (r : DecodeResult) : (s.decoded r).fmt = s.fmt := rfl
@[simp] theorem State.decoded_alone (s : State) (r : DecodeResult) : (s.decoded r).alone = s.alone := rfl
@[simp] theorem State.decoded_outputs (s : State) (r : DecodeResult) : (s.decoded r).outputs = outputsOf r := rfl
@[simp] theorem State.decoded_ret (s : State) (r : DecodeResult) : (s.decoded r).ret = .decode r := rfl

/-- Presenting inputs forgets the inputs presented before. -/
@[simp] theorem State.present_present (s : State) (src src' : Src) (mode mode' : BitVec 1) (fmt fmt' : BitVec 2) :
    (s.present src mode fmt).present src' mode' fmt' = s.present src' mode' fmt' := rfl

/-- A later record replaces an earlier one. -/
@[simp] theorem State.decoded_decoded (s : State) (r r' : DecodeResult) :
    (s.decoded r).decoded r' = s.decoded r' := rfl

/-- A later returned value replaces an earlier one. -/
@[simp] theorem State.returning_returning (s : State) (v v' : Returned) :
    (s.returning v).returning v' = s.returning v' := rfl

end Sys2Proof.Machine
end

