-- ==== Sys2Proof/Laws/Ops.lean ====
section
/-! SUPPORT. What an operation, and so a step, can do: said once, for every later proof. -/

namespace Sys2Proof.Machine

/-- What the operation `i` leaves of `s`: a Decoder's record on the ports, or a returned value. -/
theorem exec_cases {i : Instr} {s t : State} (h : exec i s = .next t) :
    (encode i ≠ none ∧ ∃ jl mode fmt, t = s.decoded (decode jl s.regNames s.src mode fmt)) ∨
      (encode i = none ∧ ∃ v, t = s.returning v) := by
  cases i with
  | extractField b lo width =>
    simp only [exec, execExtractField] at h
    split at h
    · exact .inr ⟨rfl, _, (Host.Outcome.next.inj h).symm⟩
    · cases h
  | ingestBinary => exact .inr ⟨rfl, _, (Host.Outcome.next.inj h).symm⟩
  | ingestBinaryLikeDecimal => exact .inr ⟨rfl, _, (Host.Outcome.next.inj h).symm⟩
  | bitsToNumber b => exact .inr ⟨rfl, _, (Host.Outcome.next.inj h).symm⟩
  | resolveReg i => exact .inr ⟨rfl, _, (Host.Outcome.next.inj h).symm⟩
  | decodeR mode => exact .inl ⟨nofun, _, _, _, (Host.Outcome.next.inj h).symm⟩
  | decodeI mode => exact .inl ⟨nofun, _, _, _, (Host.Outcome.next.inj h).symm⟩
  | decodeJ mode => exact .inl ⟨nofun, _, _, _, (Host.Outcome.next.inj h).symm⟩
  | decodeJCanonical26 mode => exact .inl ⟨nofun, _, _, _, (Host.Outcome.next.inj h).symm⟩
  | decodeJLiteral42 mode => exact .inl ⟨nofun, _, _, _, (Host.Outcome.next.inj h).symm⟩
  | reservedFmt11 mode => exact .inl ⟨nofun, _, _, _, (Host.Outcome.next.inj h).symm⟩

/-- The operation asked for on its own is fetched. -/
theorem State.fetch_of_some {s : State} {i : Instr} (h : s.alone = some i) : s.fetch = i := by
  simp [State.fetch, h]

/-- With none asked for, the control ports select the operation (R71, R78). -/
theorem State.fetch_of_none {s : State} (h : s.alone = none) :
    s.fetch = decodeControl s.jLayout (controlWord s.mode s.fmt) := by
  simp [State.fetch, h]

/-- Splitting a control word gives back the ports it was made of (R78). -/
theorem control_split (mode : BitVec 1) (fmt : BitVec 2) :
    controlMode (controlWord mode fmt) = mode ∧ controlFmt (controlWord mode fmt) = fmt := by
  revert mode fmt
  decide

/-- A step of the control ports is the selected whole evaluation, of the block's own layout. -/
theorem step_of_none {s : State} (h : s.alone = none) :
    step s = evaluate s.jLayout (modeOfBit s.mode) (formatOfCode s.fmt) s := by
  have hc := control_split s.mode s.fmt
  simp only [step, State.fetch_of_none h, decodeControl, hc.1, hc.2]
  cases hf : formatOfCode s.fmt with
  | none => rfl
  | some f =>
    cases f with
    | r => rfl
    | i => rfl
    | j => cases hj : s.jLayout <;> simp [selectRow, decodeJOf, exec, execDecodeJ, execDecodeJCanonical26, execDecodeJLiteral42]

end Sys2Proof.Machine
end

