-- ==== Sys2Proof/Laws/PerInstr.lean ====
section
/-! SUPPORT. Statements about every operation as syntax, one lemma per constructor. -/

namespace Sys2Proof.Laws.RowMatch

/-- The mask and the match of the operation's row of spec/opcode_table.json, over the control word (R78). -/
def row : Instr → Option (BitVec 3 × BitVec 3)
  | .decodeR _ => some (0b011, 0b000)
  | .decodeI _ => some (0b011, 0b001)
  | .decodeJ _ => some (0b011, 0b010)
  | .decodeJCanonical26 _ => some (0b011, 0b010)
  | .decodeJLiteral42 _ => some (0b011, 0b010)
  | .reservedFmt11 _ => some (0b011, 0b011)
  | .ingestBinary => some (0b100, 0b000)
  | .ingestBinaryLikeDecimal => some (0b100, 0b100)
  | .bitsToNumber _ => none
  | .extractField _ _ _ => none
  | .resolveReg _ => none

/-- An operation that has a control word of its own has one that matches its row of the table. -/
def Statement (i : Instr) : Prop :=
  ∀ c, encode i = some c → ∃ m, row i = some m ∧ c &&& m.1 = m.2

theorem decodeR (mode : Mode) : Statement (.decodeR mode) := by
  intro c hc; cases hc; exact ⟨_, rfl, by cases mode <;> decide⟩

theorem decodeI (mode : Mode) : Statement (.decodeI mode) := by
  intro c hc; cases hc; exact ⟨_, rfl, by cases mode <;> decide⟩

theorem decodeJ (mode : Mode) : Statement (.decodeJ mode) := by
  intro c hc; cases hc; exact ⟨_, rfl, by cases mode <;> decide⟩

theorem decodeJCanonical26 (mode : Mode) : Statement (.decodeJCanonical26 mode) := by
  intro c hc; cases hc; exact ⟨_, rfl, by cases mode <;> decide⟩

theorem decodeJLiteral42 (mode : Mode) : Statement (.decodeJLiteral42 mode) := by
  intro c hc; cases hc; exact ⟨_, rfl, by cases mode <;> decide⟩

theorem reservedFmt11 (mode : Mode) : Statement (.reservedFmt11 mode) := by
  intro c hc; cases hc; exact ⟨_, rfl, by cases mode <;> decide⟩

theorem ingestBinary : Statement .ingestBinary := fun _ hc => nomatch hc

theorem ingestBinaryLikeDecimal : Statement .ingestBinaryLikeDecimal := fun _ hc => nomatch hc

theorem bitsToNumber (b : Word) : Statement (.bitsToNumber b) := fun _ hc => nomatch hc

theorem extractField (b : Word) (lo width : Nat) : Statement (.extractField b lo width) := fun _ hc => nomatch hc

theorem resolveReg (i : BitVec 26) : Statement (.resolveReg i) := fun _ hc => nomatch hc

end Sys2Proof.Laws.RowMatch
end

