-- ==== Sys2Proof/Tests/Slice0.lean ====
section
/-! SUPPORT. The model's own tests. Expected results are the spec's: its tables and the vectors of 95_test_vectors.md, whose ids
stand in each comment. -/

namespace Sys2Proof.Tests

open Sys2Proof.Machine

/-- A block at reset with inputs on its ports. -/
def onPorts (jl : JLayout) (src : Src) (mode : BitVec 1) (fmt : BitVec 2) : State :=
  { State.reset with jLayout := jl, src := src, mode := mode, fmt := fmt }

/-- The output ports after a step. -/
def outputsAfter (s : State) : Option Outputs :=
  match step s with
  | .next t => some t.outputs
  | .fault _ => none
  | .refused _ => none

/-- What the last operation returned, after a step. -/
def returnedAfter (s : State) : Option Returned :=
  match step s with
  | .next t => some t.ret
  | .fault _ => none
  | .refused _ => none

/-- The status, word and field count after a step. -/
def summary (s : State) : Option (Nat × Nat × Nat) :=
  (outputsAfter s).map (fun o => (o.status.toNat, o.word.toNat, o.nfields.toNat))

/-- The raw value and the `fok` of each used slot after a step. -/
def fieldsAfter (s : State) : Option (List (Nat × Nat)) :=
  (outputsAfter s).map (fun o => (o.slots.toList.take o.nfields.toNat).map (fun k => (k.fraw.toNat, k.fok.toNat)))

/-- The refusal of a step. -/
def refusalOf (s : State) : Option Refusal :=
  match step s with
  | .next _ => none
  | .fault _ => none
  | .refused r => some r

/-! ## WellFormed: an ill-formed term for each check -/

/-- 93 U4: `W = 0` has no meaning. -/
theorem test_wellFormed_refuses_empty_range : (Instr.extractField 0 5 0).wellFormed = false := by decide

/-- 93 U4: `lo + W > 32` has no meaning. -/
theorem test_wellFormed_refuses_range_past_word : (Instr.extractField 0 27 6).wellFormed = false := by decide

/-- EX-9, the largest range. -/
theorem test_wellFormed_accepts_whole_word : (Instr.extractField 0 0 32).wellFormed = true := by decide

/-! ## Decode: the control words of 30_encoding.md R78, bit by bit (`ctl[2]` mode, `ctl[1:0]` fmt) -/

theorem test_decode_R : decodeTableWord 8 0b000 = some (.decodeR .binary) := by decide
theorem test_decode_R_decimal : decodeTableWord 8 0b100 = some (.decodeR .binaryLikeDecimal) := by decide
theorem test_decode_I : decodeTableWord 8 0b001 = some (.decodeI .binary) := by decide
theorem test_decode_I_decimal : decodeTableWord 8 0b101 = some (.decodeI .binaryLikeDecimal) := by decide
theorem test_decode_J : decodeTableWord 8 0b010 = some (.decodeJ .binary) := by decide
theorem test_control_J_canonical26 : decodeControl .canonical26 0b010 = .decodeJCanonical26 .binary := by decide
theorem test_control_J_literal42 : decodeControl .literal42 0b110 = .decodeJLiteral42 .binaryLikeDecimal := by decide
theorem test_decode_reserved : decodeTableWord 8 0b011 = some (.reservedFmt11 .binary) := by decide
theorem test_decode_rejects_bit_above_control : decodeNumber .split16 0b1000 = .error (.bitsAboveControl 8) := by rfl
theorem test_decode_rejects_no_byte : decodeBytes .split16 [] = .error .noByte := by rfl
theorem test_decode_leaves_rest : decodeBytes .split16 [0b001, 0xFF] = .ok (.decodeI .binary, [0xFF]) := by rfl
theorem test_encode_J : encode (.decodeJ .binaryLikeDecimal) = some 0b110 := by decide
theorem test_ingest_has_no_control_word : encode .ingestBinary = none := by decide

/-- L1-4: the R-type word of op 14, rs 12, rt 11, rd 7, shamt 11, funct 40. -/
theorem test_assemble_R : assembleWord (schema .r .split16) [14, 12, 11, 7, 11, 40] = 0x398B3AE8 := by decide

/-! ## Each operation -/

/-- IB-7. -/
theorem test_ingest_binary_drops_high_bits :
    returnedAfter ((onPorts .split16 0x123456789ABCDEF0 0 0).request .ingestBinary) = some (.word (.ok 0x9ABCDEF0)) := by decide

/-- ID-8. -/
theorem test_ingest_decimal :
    returnedAfter ((onPorts .split16 10010101000100000000 1 0).request .ingestBinaryLikeDecimal) =
      some (.word (.ok 0x00095100)) := by decide

/-- ID-15. -/
theorem test_ingest_decimal_bad_digit :
    returnedAfter ((onPorts .split16 12111111111111111111 1 0).request .ingestBinaryLikeDecimal) =
      some (.word (.err (.invalidDigit 18 2))) := by decide

/-- BN-3. -/
theorem test_bits_to_number_unsigned :
    returnedAfter (State.reset.request (.bitsToNumber 0x80000000)) = some (.number 2147483648) := by decide

/-- EX-8. -/
theorem test_extract_low_26 :
    returnedAfter (State.reset.request (.extractField 0x398B3AE8 0 26)) = some (.bits 0x018B3AE8) := by decide

/-- EX-11. -/
theorem test_extract_top_6 :
    returnedAfter (State.reset.request (.extractField 0xFFFFFFFF 26 6)) = some (.bits 0x0000003F) := by decide

/-- RR-4, and the first index past it, RR-8. -/
theorem test_resolve_last_index :
    returnedAfter (State.reset.request (.resolveReg 31)) = some (.regName (.ok ['$', 'r', 'a'])) := by decide

theorem test_resolve_first_invalid_index :
    returnedAfter (State.reset.request (.resolveReg 32)) = some (.regName (.err (.invalidRegisterNumber 32))) := by decide

/-- DP-1 (the ports of DR-3, L1-6). -/
theorem test_decode_R_ports :
    outputsAfter (onPorts .split16 965425896 0 0b00) = some
      { status := 4, word := 0x398B3AE8, nfields := 6, badPos := 0, badDigit := 0, schemaSum := 0,
        slots := #v[
          { fname := 0b0000, fhi := 31, flo := 26, fraw := 14, fok := 1, freg := 0x0000367424, freglen := 3 },
          { fname := 0b0001, fhi := 25, flo := 21, fraw := 12, fok := 1, freg := 0x0000347424, freglen := 3 },
          { fname := 0b0010, fhi := 20, flo := 16, fraw := 11, fok := 1, freg := 0x0000337424, freglen := 3 },
          { fname := 0b0011, fhi := 15, flo := 11, fraw := 7, fok := 1, freg := 0x0000336124, freglen := 3 },
          { fname := 0b0100, fhi := 10, flo := 6, fraw := 11, fok := 1, freg := 0x0000337424, freglen := 3 },
          { fname := 0b0101, fhi := 5, flo := 0, fraw := 40, fok := 0, freg := 0, freglen := 0 }] } := by decide

/-- DX-5. -/
theorem test_decode_R_decimal_fields :
    fieldsAfter (onPorts .split16 11111111111111111111 1 0b00) =
      some [(0, 1), (0, 1), (15, 1), (31, 1), (31, 1), (63, 0)] := by decide

/-- DI-5: the offset 0xFFFF is 65535, never -1. -/
theorem test_decode_I_offset_unsigned :
    fieldsAfter (onPorts .split16 0x2129FFFF 0 0b01) = some [(8, 1), (9, 1), (9, 1), (65535, 0)] := by decide

/-- DJ-6. -/
theorem test_decode_J_split16 :
    fieldsAfter (onPorts .split16 0x03FFFFFF 0 0b10) = some [(0, 1), (31, 1), (31, 1), (65535, 0)] := by decide

/-- DJ-7. -/
theorem test_decode_J_canonical26 :
    fieldsAfter (onPorts .canonical26 0x03FFFFFF 0 0b10) = some [(0, 1), (67108863, 0)] := by decide

/-- DJ-3. -/
theorem test_decode_J_literal42 :
    (outputsAfter (onPorts .literal42 965425896 0 0b10)).map (fun o => (o.status, o.word, o.nfields, o.schemaSum)) =
      some (3, 0x398B3AE8, 0, 42) := by decide

/-- DX-7. -/
theorem test_reserved_format : summary (onPorts .split16 965425896 0 0b11) = some (2, 0x398B3AE8, 0) := by decide

/-- DX-2 and DX-6: InvalidDigit comes first. -/
theorem test_invalid_digit_before_format :
    (outputsAfter (onPorts .split16 2 1 0b11)).map (fun o => (o.status, o.word, o.badPos, o.badDigit)) = some (1, 0, 0, 2) := by decide

theorem test_invalid_digit_before_width_check :
    (outputsAfter (onPorts .literal42 2 1 0b10)).map (fun o => (o.status, o.word, o.badPos, o.badDigit)) = some (1, 0, 0, 2) := by decide

/-- 93 U4. -/
theorem test_extract_refuses :
    refusalOf (State.reset.request (.extractField 0xFFFFFFFF 27 6)) = some (.extractOutsideWord 27 6) := by decide

/-- RN-2. -/
theorem test_render_R :
    runExternal .split16 defaultRegNames { format := .r, number := 965425896, numberIsBinary := false } =
      { text := "op $t6\nrs $t4\nrt $t3\nrd $a3\nshamt $t3\nfunct 40\n".toList, exitCode := 4 } := by decide

/-- RN-5. -/
theorem test_render_invalid_digit :
    runExternal .split16 defaultRegNames { format := .r, number := 2, numberIsBinary := true } =
      { text := [], exitCode := 1 } := by decide

/-- A big-endian and a little-endian host's bytes of the word of L1-6 (R52). -/
theorem test_assemble_bytes :
    assembleBytes .big 0x39 0x8B 0x3A 0xE8 = 0x398B3AE8 ∧ assembleBytes .little 0xE8 0x3A 0x8B 0x39 = 0x398B3AE8 := by decide

/-! ## Witnesses: the hypotheses of the statements can be met together, at the boundaries of their clauses -/

set_option maxRecDepth 4000 in
/-- SourceFixedRegisterNames, ZeroWordIsAllZeroRegister. -/
theorem witness_names : NamesAdmissible defaultRegNames ∧ NamesPortable defaultRegNames := ⟨by decide, by decide⟩

set_option maxRecDepth 4000 in
/-- StepKeepsInvariant: an evaluation from a state that meets the invariant. -/
theorem witness_invariant : State.reset.Inv ∧ ∃ t, step State.reset = .next t :=
  ⟨⟨by decide, by decide, ⟨by decide, by decide⟩, by decide⟩, _, rfl⟩

/-- DecimalIngestReadsDigits, first clause: 0 has no digit above 1. -/
theorem witness_decimal_good : ∀ i, digit (onPorts .split16 0 1 0).src.toNat i ≤ 1 := by
  intro i
  simp [onPorts, digit]

/-- DecimalIngestReadsDigits, second clause, at the highest position a 64-bit source reaches with a bad digit (ID-15). -/
theorem witness_decimal_bad : 2 ≤ digit (12111111111111111111 : Src).toNat 18 ∧ ∀ j, j < 18 → digit (12111111111111111111 : Src).toNat j ≤ 1 := by
  decide

/-- DecimalIngestReach: ID-5, and a word with bits 31 to 20 clear. -/
theorem witness_reach : numberToBits .binaryLikeDecimal 11111111111111111111 = .ok 0x000FFFFF ∧ (0x000FFFFF : Word).extractLsb' 20 12 = 0 := by
  decide

/-- ExtractFieldTakesSlice: the widest and the highest range of the first clause, and both clauses of the second. -/
theorem witness_extract : FieldRangeOk 0 32 ∧ FieldRangeOk 31 1 ∧ ¬FieldRangeOk 32 1 ∧ ¬FieldRangeOk 31 0 := by decide

/-- SchemaWalkRanges, ExtractionIsLosslessPartition, RawValueIsUnsignedSlice and the statements on schemas of sum 32. -/
theorem witness_schema : schemaSum (schema .r .split16) = 32 ∧ schemaSum (schema .j .canonical26) = 32 ∧
    0 < (schema .r .split16).length := by decide

theorem witness_walk_entry : ∃ e ∈ schemaWalk 0xFFFFFFFF (schema .i .split16), 1 ≤ e.width := by decide

/-- SchemaWidthCheck: both clauses. -/
theorem witness_width_check : schemaSum (schema .j .literal42) ≠ 32 ∧
    (decode .literal42 defaultRegNames 0 .binary (some .j)).status = .schemaWidthMismatch := by decide

/-- ResolverReadsTable: the clauses at 31 and 32. -/
theorem witness_resolver : (31 : BitVec 26).toNat ≤ 31 ∧ 32 ≤ (32 : BitVec 26).toNat := by decide

/-- ResolverPureAndInjective. -/
theorem witness_resolver_pure : (∃ t, exec (.resolveReg 31) State.reset = .next t) ∧
    resolveRegisterName defaultRegNames 31 = resolveRegisterName defaultRegNames 31 := ⟨⟨_, rfl⟩, rfl⟩

/-- The DECODE and RESERVED statements: a good ingest in each mode, and a bad one (also SplitJMatchesI, ErrorPriority,
ErrorRecordsOnPorts, OutOfRangeFieldDoesNotStop). -/
theorem witness_ingest : numberToBits .binary 965425896 = .ok 0x398B3AE8 ∧
    numberToBits .binaryLikeDecimal 100000 = .ok 0x20 ∧
    numberToBits .binaryLikeDecimal 18446744073709551615 = .err (.invalidDigit 0 5) := by decide

/-- ReservedFormatIsInvalidFormat, last clause. -/
theorem witness_reserved : (onPorts .split16 0 1 0b11).alone = none ∧ (onPorts .split16 0 1 0b11).fmt = 0b11 ∧
    modeOfBit (onPorts .split16 0 1 0b11).mode = .binaryLikeDecimal := by decide

/-- JEvaluationPerLayout: `fmt = 10` in a block of each layout after a good ingest, and after a bad one in mode 1. -/
theorem witness_j_evaluation : ∀ jl : JLayout,
    (onPorts jl 965425896 0 0b10).alone = none ∧ (onPorts jl 965425896 0 0b10).fmt = 0b10 ∧
    numberToBits (modeOfBit (onPorts jl 965425896 0 0b10).mode) (onPorts jl 965425896 0 0b10).src = .ok 0x398B3AE8 ∧
    (onPorts jl 2 1 0b10).alone = none ∧ (onPorts jl 2 1 0b10).fmt = 0b10 ∧
    numberToBits (modeOfBit (onPorts jl 2 1 0b10).mode) (onPorts jl 2 1 0b10).src = .err (.invalidDigit 0 2) := by
  intro jl
  cases jl <;> decide

/-- RenderingTellsErrorsFromNames: a good ingest under a schema of sum 32, one under a schema that fails the check, and a bad
ingest. -/
theorem witness_rendering : numberToBits (if false then .binaryLikeDecimal else .binary) 965425896 = .ok 0x398B3AE8 ∧
    schemaSum (schema .r .split16) = 32 ∧ schemaSum (schema .j .literal42) ≠ 32 ∧
    numberToBits (if true then .binaryLikeDecimal else .binary) 2 = .err (.invalidDigit 0 2) := by decide

/-- FirstEvaluationReplacesHeldOutputs: a state that evaluates its ports, whose outputs are not those of its inputs. -/
theorem witness_held_outputs : (onPorts .split16 31 0 0b01).alone = none ∧
    (onPorts .split16 31 0 0b01).outputs ≠ (onPorts .split16 31 0 0b01).liveOutputs := by decide

/-- FieldValueByRawValue, ErrorRecordsOnPorts: DR-5 and DR-6, fields at 31 and 32. -/
theorem witness_field_31 : ∃ fd ∈ (decode .split16 defaultRegNames 0x1F .binary (some .r)).fields, fd.raw = 31 := by decide
theorem witness_field_32 :
    ((decode .split16 defaultRegNames 0x20 .binary (some .r)).fields[5]?).map (fun fd => fd.raw) = some 32 := by decide

/-- OutOfRangeFieldDoesNotStop, last clause: a raw value at index 3. -/
theorem witness_raw_value : (rawValues 0x1F (schema .i .split16))[3]? = some 31 := by decide

/-- FieldCountAndOrder: OK, FieldIndexOutOfRange, and neither. -/
theorem witness_status : (decode .split16 defaultRegNames 0 .binary (some .r)).status = .ok ∧
    (decode .split16 defaultRegNames 0x20 .binary (some .i)).status = .fieldIndexOutOfRange ∧
    (decode .split16 defaultRegNames 0 .binary none).status = .invalidFormat := by decide

/-- SlotsFilledInOrder: under I, slot 3 is used and slot 4 is not. -/
theorem witness_slots : (3 : Nat) < (outputsOf (decode .split16 defaultRegNames 0 .binary (some .i))).nfields.toNat ∧
    (outputsOf (decode .split16 defaultRegNames 0 .binary (some .i))).nfields.toNat ≤ 4 := by decide

/-- NameBytesOnPort: the longest default name, its last character and the first byte above a shorter one. -/
theorem witness_name : (['$', 'z', 'e', 'r', 'o'] : Text).length ≤ 5 ∧
    (∀ c ∈ (['$', 'z', 'e', 'r', 'o'] : Text), c.toNat < 128) ∧
    4 < (['$', 'z', 'e', 'r', 'o'] : Text).length ∧ (['$', 't', '0'] : Text).length ≤ 3 :=
  ⟨by decide, by simp, by decide, by decide⟩

theorem witness_named_field :
    ∃ fd ∈ (decode .split16 defaultRegNames 0 .binary (some .r)).fields, fd.value = .name ['$', 'z', 'e', 'r', 'o'] := by decide

/-- EvaluationIsRepeatable, NoStateCarriedOver, OperationFrame, EvaluationDrivesLiveOutputs, OutputsDependOnInputsOnly. -/
theorem witness_step : (onPorts .split16 31 0 0b01).alone = none ∧ (∃ t, step (onPorts .split16 31 0 0b01) = .next t) ∧
    SameInputs (onPorts .split16 31 0 0b01) ((onPorts .split16 31 0 0b01).returning .nothing) := ⟨rfl, ⟨_, rfl⟩, by decide⟩

theorem witness_step_alone : ∃ t, step (State.reset.request .ingestBinary) = .next t := ⟨_, rfl⟩

/-- OperationFrame: both kinds of operation. -/
theorem witness_frame : encode .ingestBinary = none ∧ (∃ t, exec .ingestBinary State.reset = .next t) ∧
    encode (.decodeR .binary) ≠ none ∧ ∃ t, exec (.decodeR .binary) State.reset = .next t :=
  ⟨rfl, ⟨_, rfl⟩, by decide, ⟨_, rfl⟩⟩

/-- StepRunsSelectedOperation: both clauses. -/
theorem witness_selected : State.reset.alone = none ∧ (State.reset.request .ingestBinary).alone = some .ingestBinary := ⟨rfl, rfl⟩

/-- ControlWordRoundTrip. -/
theorem witness_round_trip : offeredBy .canonical26 (.decodeJCanonical26 .binary) = true ∧
    encode (.decodeJCanonical26 .binary) = some 0b010 := by decide

/-- TabledControlWordsDecode: the bytes next to the control words and the last byte. -/
theorem witness_rejected_bytes : decodeTableWord 8 7 ≠ none ∧ decodeTableWord 8 8 = none ∧ decodeTableWord 8 255 = none := by decide

/-- PlacedControlWordRuns. -/
theorem witness_placed : decodeTableWord 8 0b111 = some (.reservedFmt11 .binaryLikeDecimal) := by decide

/-- AssembledWordDecodesToItsFields, WalkInvertsAssembly: every field at its largest value. -/
theorem witness_assembly : schemaSum (schema .i State.reset.jLayout) = 32 ∧
    List.Forall₂ (fun fd v => v < 2 ^ fd.2) (schema .i State.reset.jLayout) [63, 31, 31, 65535] := by
  refine ⟨rfl, ?_⟩
  simp [schema]

/-- HighSourceBitsLeaveNoTrace. -/
theorem witness_high_bits : (0x1_00000008 : Src).extractLsb' 0 32 = (8 : Src).extractLsb' 0 32 := by decide

end Sys2Proof.Tests
end

section
/-! The outputs of an evaluation, and the block at reset (R36, R230, R231). -/

namespace Sys2Proof.Machine

/-- Whatever the outputs held before, an evaluation of the ports drives the combinational function of the inputs. -/
theorem step_outputs_live {s : State} (h : s.alone = none) :
    ∃ t, step s = .next t ∧ t.outputs = s.liveOutputs :=
  ⟨_, step_of_none h, rfl⟩

/-- The control ports at reset select binary mode and format R, for which `resetOutputs` was formed. -/
theorem reset_outputs_live : State.reset.outputs = State.reset.liveOutputs := by
  have hmode : modeOfBit State.reset.mode = .binary := rfl
  have hfmt : formatOfCode State.reset.fmt = some .r := rfl
  rw [State.liveOutputs, hmode, hfmt]
  rfl

/-- Settles O43: nothing is asked for on its own at reset, so the step evaluates the ports and drives the function of the
inputs, which the outputs already are. -/
theorem resetOutputsAreOfItsInputs : Obligations.ResetOutputsAreOfItsInputs := by
  unfold Obligations.ResetOutputsAreOfItsInputs
  obtain ⟨t, hstep, hout⟩ := step_outputs_live (s := State.reset) rfl
  exact ⟨⟨t, hstep, hout.trans reset_outputs_live.symm⟩, reset_outputs_live, rfl, rfl⟩

end Sys2Proof.Machine
end

section
/-! Which operations change what: the frame, repetition, and the returned value (R13, R20, R23, R25). -/

namespace Sys2Proof.Machine

/-- A whole evaluation has one next state. -/
theorem evaluate_eq_next {jl : JLayout} {mode : Mode} {fmt : Option Format} {s t : State}
    (h : evaluate jl mode fmt s = .next t) : t = s.decoded (decode jl s.regNames s.src mode fmt) :=
  (Host.Outcome.next.inj h).symm

/-- An extraction on its own that has a next state returns its bits (R130). -/
theorem execExtractField_eq_next {b : Word} {lo width : Nat} {s t : State} (h : execExtractField b lo width s = .next t) :
    FieldRangeOk lo width ∧ t = s.returning (.bits (extractBits b lo width)) := by
  rw [execExtractField] at h
  split at h
  next hrange => exact ⟨hrange, (Host.Outcome.next.inj h).symm⟩
  next => cases h

/-- No operation changes a parameter or an input (R20, R23, R25). -/
theorem exec_sameInputs {i : Instr} {s t : State} (h : exec i s = .next t) : SameInputs s t := by
  obtain ⟨-, _, _, _, rfl⟩ | ⟨-, _, rfl⟩ := exec_cases h
  · exact ⟨rfl, rfl, rfl, rfl, rfl, rfl⟩
  · exact ⟨rfl, rfl, rfl, rfl, rfl, rfl⟩

/-- Which operation a step evaluates depends on the inputs and the layout only. -/
theorem State.fetch_of_sameInputs {s t : State} (h : SameInputs s t) : t.fetch = s.fetch := by
  obtain ⟨hjl, -, -, hmode, hfmt, halone⟩ := h
  simp only [State.fetch, hjl, hmode, hfmt, halone]

/-- An operation repeated gives the same state: it reads nothing that it wrote. -/
theorem exec_repeat {i : Instr} {s t : State} (h : exec i s = .next t) : exec i t = .next t := by
  cases i with
  | extractField b lo width =>
    obtain ⟨hrange, rfl⟩ := execExtractField_eq_next h
    exact if_pos hrange
  | ingestBinary | ingestBinaryLikeDecimal | bitsToNumber _ | resolveReg _ => cases h; rfl
  | decodeR _ | decodeI _ | decodeJ _ | decodeJCanonical26 _ | decodeJLiteral42 _ | reservedFmt11 _ => cases h; rfl

/-- An operation with no control word of its own returns no Decoder's record. -/
theorem exec_ret_ne_decode {i : Instr} {s t : State} (h : exec i s = .next t) (hi : encode i = none) (r : DecodeResult) :
    t.ret ≠ .decode r := by
  cases i with
  | extractField b lo width =>
    obtain ⟨-, rfl⟩ := execExtractField_eq_next h
    nofun
  | ingestBinary | ingestBinaryLikeDecimal | bitsToNumber _ | resolveReg _ => cases h; nofun
  | decodeR _ | decodeI _ | decodeJ _ | decodeJCanonical26 _ | decodeJLiteral42 _ | reservedFmt11 _ => cases hi

/-- A record that was driven is the one on the ports. -/
theorem State.portsAgree_decoded (s : State) (r : DecodeResult) : (s.decoded r).portsAgree = true := by
  simp [State.portsAgree]

/-- With no record returned there is nothing for the ports to agree with. -/
theorem State.portsAgree_of_ne_decode {s : State} (h : ∀ r, s.ret ≠ .decode r) : s.portsAgree = true := by
  cases hr : s.ret with
  | decode r => exact absurd hr (h r)
  | nothing | word _ | number _ | bits _ | regName _ => simp [State.portsAgree, hr]

/-- Settles O33: an operation drives a record or returns a value, and neither touches an input. -/
theorem operationFrame : Obligations.OperationFrame := by
  intro i s t h
  refine ⟨exec_sameInputs h, ?_⟩
  obtain ⟨hi, jl, mode, fmt, rfl⟩ | ⟨hi, v, rfl⟩ := exec_cases h
  · exact ⟨fun hn => absurd hn hi, fun _ => ⟨jl, mode, fmt, rfl, rfl⟩⟩
  · exact ⟨fun _ => rfl, fun hn => absurd hi hn⟩

/-- Settles O29: a step keeps the inputs, so the next one fetches the same operation, which repeats. -/
theorem evaluationIsRepeatable : Obligations.EvaluationIsRepeatable := by
  intro s t h
  rw [step, State.fetch_of_sameInputs (exec_sameInputs h)]
  exact exec_repeat h

/-- Settles O30: a step changes only the outputs and the returned value, which an evaluation of presented inputs replaces. -/
theorem noStateCarriedOver : Obligations.NoStateCarriedOver := by
  intro s t src mode fmt h
  rw [step_of_none (State.present_alone ..), step_of_none (State.present_alone ..)]
  obtain ⟨-, _, _, _, rfl⟩ | ⟨-, _, rfl⟩ := exec_cases h
  · rfl
  · rfl

/-- Settles O32: the selected evaluation drives the function of the inputs, and leaves these as they are. -/
theorem evaluationDrivesLiveOutputs : Obligations.EvaluationDrivesLiveOutputs := by
  intro s t halone h
  rw [step_of_none halone] at h
  rw [evaluate_eq_next h]
  exact ⟨rfl, rfl⟩

end Sys2Proof.Machine
end

section
/-! A register name on the ports, byte by byte (R34). -/

namespace Sys2Proof.Machine

/-- A name's value is its tail's value one byte up, with its first character below, as long as the port has room. -/
theorem encodeName_cons_toNat (c : Char) {cs : Text} (h : (encodeName cs).toNat < 256 ^ 4) :
    (encodeName (c :: cs)).toNat = (encodeName cs).toNat * 256 + c.toNat % 256 := by
  have hc : c.toNat % 256 < 2 ^ 8 := Nat.mod_lt _ (by decide)
  rw [encodeName, BitVec.toNat_or, BitVec.toNat_shiftLeft, BitVec.toNat_ofNat,
    Nat.mod_eq_of_lt (by omega : c.toNat % 256 < 2 ^ 40), Nat.shiftLeft_eq, Nat.mod_eq_of_lt (by omega), Nat.mul_comm,
    ← Nat.two_pow_add_eq_or_of_lt hc, Nat.mul_comm]

/-- The bytes above a name's length are zero. -/
theorem encodeName_toNat_lt {cs : Text} (h : cs.length ≤ 5) : (encodeName cs).toNat < 256 ^ cs.length := by
  induction cs with
  | nil => decide
  | cons c cs ih =>
    have hlen : cs.length ≤ 4 := Nat.le_of_succ_le_succ h
    have hlt := ih (by omega)
    have hc := Nat.mod_lt c.toNat (show 256 > 0 by decide)
    rw [encodeName_cons_toNat c (hlt.trans_le (Nat.pow_le_pow_right (by decide) hlen)), List.length_cons, Nat.pow_succ]
    omega

/-- Byte `j` of a name that fits is the code of character `j`, or zero past its end. -/
theorem encodeName_byte {cs : Text} (h : cs.length ≤ 5) (j : Nat) :
    (encodeName cs).toNat / 256 ^ j % 256 = (cs[j]?.map (fun c => c.toNat % 256)).getD 0 := by
  induction cs generalizing j with
  | nil => simp [encodeName]
  | cons c cs ih =>
    have hlen : cs.length ≤ 4 := Nat.le_of_succ_le_succ h
    have hlt := encodeName_toNat_lt (cs := cs) (by omega)
    rw [encodeName_cons_toNat c (hlt.trans_le (Nat.pow_le_pow_right (by decide) hlen))]
    cases j with
    | zero => simp
    | succ j =>
      have htail : ((encodeName cs).toNat * 256 + c.toNat % 256) / 256 = (encodeName cs).toNat := by omega
      rw [Nat.pow_succ', ← Nat.div_div_eq_div_mul, htail, List.getElem?_cons_succ, ih (by omega)]

/-- The same of the port's bits `8j+7` to `8j`. -/
theorem encodeName_extract_toNat {cs : Text} (h : cs.length ≤ 5) (j : Nat) :
    ((encodeName cs).extractLsb' (8 * j) 8).toNat = (cs[j]?.map (fun c => c.toNat % 256)).getD 0 := by
  rw [← encodeName_byte h, BitVec.extractLsb'_toNat, Nat.shiftRight_eq_div_pow, Nat.pow_mul]

/-- A name that fits and begins with `$` meets what a legal slot asks of it (R25, R34). -/
theorem encodeName_of_dollar {cs : Text} (hlen : cs.length ≤ 5) (hhead : cs.head? = some '$') :
    (encodeName cs).toNat % 256 = 0x24 ∧ 1 ≤ cs.length ∧ cs.length ≤ 5 ∧ (encodeName cs).toNat < 256 ^ cs.length := by
  cases cs with
  | nil => cases hhead
  | cons c cs =>
    obtain rfl : c = '$' := by simpa using hhead
    have hbyte := encodeName_byte hlen 0
    exact ⟨by simpa using hbyte, by simp, hlen, encodeName_toNat_lt hlen⟩

/-- The slot of a field with a name carries that name. -/
theorem usedSlot_freg_of_name {fd : FieldOut} {cs : Text} (h : fd.value = .name cs) :
    (usedSlot fd).freg = encodeName cs := by
  rw [usedSlot, h, valueText]

/-- The slot of a field with a name carries its length, if the name fits. -/
theorem usedSlot_freglen_of_name {fd : FieldOut} {cs : Text} (h : fd.value = .name cs) (hlen : cs.length ≤ 5) :
    (usedSlot fd).freglen.toNat = cs.length := by
  rw [usedSlot, h, valueText]
  exact Nat.mod_eq_of_lt (by omega)

/-- Settles O26, from the byte-by-byte value of a name. -/
theorem nameBytesOnPort : Obligations.NameBytesOnPort := by
  refine ⟨fun cs hlen hascii => ⟨fun j hj => ?char, fun j hj _ => ?above⟩, fun fd cs hval hlen => ?slot, by decide, by decide⟩
  case char =>
    have hc := hascii cs[j] (List.getElem_mem hj)
    rw [encodeName_extract_toNat hlen, List.getElem?_eq_getElem hj]
    exact Nat.mod_eq_of_lt (by omega)
  case above =>
    apply BitVec.eq_of_toNat_eq
    rw [encodeName_extract_toNat hlen, List.getElem?_eq_none hj]
    rfl
  case slot => exact ⟨usedSlot_freg_of_name hval, usedSlot_freglen_of_name hval hlen⟩

end Sys2Proof.Machine
end

section
/-! The schema walk by position, and the bounds on a bad digit (R101, R131, R134). -/

namespace Sys2Proof.Machine

/-- The decimal loop fails only with a digit of 2 to 9, at one of the numeral's own positions (R101). -/
theorem decimalLoop_err_bounds {fuel v i n : Nat} {w : Word} {e : Error} (h : decimalLoop fuel v i w = .err e)
    (hv : v < 10 ^ n) : ∃ p d, e = .invalidDigit p d ∧ p < i + n ∧ 2 ≤ d ∧ d ≤ 9 := by
  induction fuel generalizing v i n w with
  | zero => cases h
  | succ fuel ih =>
    rw [decimalLoop] at h
    split at h
    · cases h
    next hv0 =>
      cases n with
      | zero => exact absurd (Nat.lt_one_iff.mp hv) hv0
      | succ n =>
        split at h
        next hd =>
          cases h
          exact ⟨i, v % 10, rfl, by omega, hd, by omega⟩
        next =>
          obtain ⟨p, d, rfl, hp, hd⟩ := ih (n := n) h (by rw [Nat.pow_succ] at hv; omega)
          exact ⟨p, d, rfl, by omega, hd⟩

/-- A failed ingest is InvalidDigit with details that fit their ports: a 64-bit number has 20 decimal digits (R101, R202). -/
theorem numberToBits_err {mode : Mode} {src : Src} {e : Error} (h : numberToBits mode src = .err e) :
    ∃ p d, e = .invalidDigit p d ∧ p ≤ 19 ∧ 2 ≤ d ∧ d ≤ 9 := by
  obtain rfl := numberToBits_err_mode h
  have hsrc := src.isLt
  obtain ⟨p, d, rfl, hp, hd⟩ := decimalLoop_err_bounds (n := 20) h (by omega)
  exact ⟨p, d, rfl, by omega, hd⟩

/-- An extraction that fits the word, as a number (R130, R134). -/
theorem bitsToNumber_extractBits (w : Word) (lo : Nat) {n : Nat} (h : n ≤ 32) :
    bitsToNumber (extractBits w lo n) = w.toNat / 2 ^ lo % 2 ^ n := by
  have hbits : extractBits w lo n = (w.extractLsb' lo n).setWidth 32 := by
    refine BitVec.eq_of_getLsbD_eq fun j hj => ?_
    rw [extractBits_getLsbD]
    simp [hj]
  rw [bitsToNumber, bitSum_eq, hbits, BitVec.toNat_setWidth, BitVec.extractLsb'_toNat, Nat.shiftRight_eq_div_pow,
    Nat.mod_mod]
  exact Nat.mod_eq_of_lt ((Nat.mod_lt _ (by positivity)).trans_le (Nat.pow_le_pow_right (by decide) h))

/-- A slice is below two to its width. -/
theorem slice_lt (w : Word) (hi lo : Nat) : slice w hi lo < 2 ^ (hi + 1 - lo) := Nat.mod_lt _ (by positivity)

/-- The widths up to an entry are those before it and its own. -/
theorem schemaSum_take_succ (s : Schema) {k : Nat} (h : k < s.length) :
    schemaSum (s.take (k + 1)) = schemaSum (s.take k) + s[k].2 := by
  induction s generalizing k with
  | nil => cases h
  | cons f rest ih =>
    cases k with
    | zero => simp [schemaSum]
    | succ k =>
      have hk : k < rest.length := by simpa using h
      simp [schemaSum, ih hk, Nat.add_assoc]

/-- No initial part of a schema is wider than the whole. -/
theorem schemaSum_take_le (s : Schema) (k : Nat) : schemaSum (s.take k) ≤ schemaSum s := by
  induction s generalizing k with
  | nil => simp
  | cons f rest ih =>
    cases k with
    | zero => simp [schemaSum]
    | succ k => simpa [schemaSum] using ih k

/-- Entry `k` of a walk from an offset that has room for the schema (R131). -/
theorem schemaWalkFrom_getElem (w : Word) {offset : Nat} {s : Schema} (h : schemaSum s ≤ offset) {k : Nat}
    (hk : k < s.length) :
    (schemaWalkFrom w offset s)[k]'(by simpa using hk) =
      { name := s[k].1, hi := offset - 1 - schemaSum (s.take k), lo := offset - schemaSum (s.take k) - s[k].2,
        width := s[k].2, bits := extractBits w (offset - schemaSum (s.take k) - s[k].2) s[k].2 } := by
  induction s generalizing offset k with
  | nil => cases hk
  | cons f rest ih =>
    obtain ⟨name, width⟩ := f
    have hsum : width + schemaSum rest ≤ offset := h
    cases k with
    | zero =>
      have hhi : offset - width + width - 1 = offset - 1 := by omega
      simp [schemaWalkFrom, schemaSum, hhi]
    | succ k =>
      have hk' : k < rest.length := by simpa using hk
      have hrest : schemaSum rest ≤ offset - width := by omega
      simp [schemaWalkFrom, schemaSum, ih hrest hk', Nat.sub_sub, Nat.add_assoc, Nat.add_comm 1]

/-- Field `k` of a decode under a schema of sum 32, written out: the slice below the fields before it (R131, R134). -/
theorem decodeFields_getElem (names : RegNames) {s : Schema} (w : Word) (hs : schemaSum s = 32) {k : Nat}
    (hk : k < s.length) (hw : 1 ≤ s[k].2) :
    (decodeFields names s w).fields[k]'(by rwa [decodeFields_length]) =
      fieldOf names w s[k].1 (31 - schemaSum (s.take k)) (32 - schemaSum (s.take (k + 1))) s[k].2 := by
  have hle := schemaSum_take_le s (k + 1)
  have hsucc := schemaSum_take_succ s hk
  have hlo : 32 - schemaSum (s.take k) - s[k].2 = 32 - schemaSum (s.take (k + 1)) := by omega
  have hwidth : 31 - schemaSum (s.take k) + 1 - (32 - schemaSum (s.take (k + 1))) = s[k].2 := by omega
  have hraw : bitsToNumber (extractBits w (32 - schemaSum (s.take (k + 1))) s[k].2) =
      slice w (31 - schemaSum (s.take k)) (32 - schemaSum (s.take (k + 1))) := by
    rw [bitsToNumber_extractBits w _ (by omega), slice, hwidth]
  simp only [decodeFields, schemaWalk, List.getElem_map, schemaWalkFrom_getElem w hs.le hk, fieldOut, fieldOf, hlo, hraw]

/-- A schema that passes the check has two, four or six fields, of 1 to 26 bits each (R72 to R77). -/
theorem schema_shape {f : Format} {jl : JLayout} (h : schemaSum (schema f jl) = 32) :
    ((schema f jl).length = 2 ∨ (schema f jl).length = 4 ∨ (schema f jl).length = 6) ∧
      ∀ e ∈ schema f jl, 1 ≤ e.2 ∧ e.2 ≤ 26 := by
  revert h
  cases f <;> cases jl <;> decide

end Sys2Proof.Machine
end

section
/-! The slots of a decode: how many are used, and what each carries (R31 to R33). -/

namespace Sys2Proof.Machine

/-- No decode has more fields than the block has slots (R31, R176). -/
theorem decode_fields_length_le (jl : JLayout) (names : RegNames) (src : Src) (mode : Mode) (fmt : Option Format) :
    (decode jl names src mode fmt).fields.length ≤ 6 := by
  obtain ⟨e, -, h⟩ | ⟨w, -, ⟨-, h⟩ | ⟨-, -, h⟩ | ⟨f, -, hs, h⟩⟩ := decode_cases jl names src mode fmt
  · simp [h, raiseError]
  · simp [h, raiseError]
  · simp [h, raiseError]
  · rw [h, decodeFields_length]
    obtain ⟨hlen, -⟩ := schema_shape hs
    omega

/-- The field count shows whole on its port. -/
theorem outputsOf_nfields_toNat {r : DecodeResult} (h : r.fields.length ≤ 6) :
    (outputsOf r).nfields.toNat = r.fields.length :=
  Nat.mod_eq_of_lt (by omega)

/-- A slot below the field count carries its field (R32). -/
theorem outputsOf_slots_of_lt {r : DecodeResult} {k : Nat} (hk : k < 6) (h : k < r.fields.length) :
    (outputsOf r).slots[k] = usedSlot r.fields[k] := by
  rw [outputsOf_slots r k hk, slotAt_of_lt h]

/-- A slot from the field count up is unused (R32). -/
theorem outputsOf_slots_of_ge {r : DecodeResult} {k : Nat} (hk : k < 6) (h : r.fields.length ≤ k) :
    (outputsOf r).slots[k] = unusedSlot := by
  rw [outputsOf_slots r k hk, slotAt_of_ge h]

/-- The codes of the eight field names are 0 to 7 (R33). -/
theorem fieldCode_toNat_le (n : FieldName) : (fieldCode n).toNat ≤ 7 := by
  cases n <;> decide

/-- `fok_k` tells whether the field's value is a name (R31). -/
theorem usedSlot_fok (fd : FieldOut) : (usedSlot fd).fok = BitVec.ofBool (valueOk fd.value) := rfl

/-- Settles O25: the count fits its port, and each slot stands on one side of it. -/
theorem slotsFilledInOrder : Obligations.SlotsFilledInOrder := by
  intro jl names src mode fmt k
  have hn := outputsOf_nfields_toNat (decode_fields_length_le jl names src mode fmt)
  rw [hn]
  refine ⟨rfl, fun hk => ?_, fun hk => ?_⟩
  · rw [Fin.getElem_fin, outputsOf_slots_of_lt k.isLt hk, List.getElem?_eq_getElem hk, Option.map_some]
  · rw [Fin.getElem_fin, outputsOf_slots_of_ge k.isLt hk, unusedSlot]

/-- Settles O51: a slot shows the code of its field, or the unused code where it has none. -/
theorem fieldNameCodesOnPorts : Obligations.FieldNameCodesOnPorts := by
  refine ⟨by decide, fun jl names src mode fmt k => ?_⟩
  rw [Fin.getElem_fin, outputsOf_slots _ _ k.isLt, slotAt]
  cases (decode jl names src mode fmt).fields[k.val]? with
  | some fd => exact ⟨rfl, .inl (fieldCode_toNat_le fd.name)⟩
  | none => exact ⟨rfl, .inr rfl⟩

end Sys2Proof.Machine
end

section
/-! The ports of one field that is a slice of the word (R31, R174, R202). -/

namespace Sys2Proof.Machine

variable (names : RegNames) (w : Word) (name : FieldName) {hi lo : Nat} (width : Nat)

theorem usedSlot_fieldOf_fhi (h : hi ≤ 31) : (usedSlot (fieldOf names w name hi lo width)).fhi.toNat = hi :=
  Nat.mod_eq_of_lt (by omega : hi < 2 ^ 5)

theorem usedSlot_fieldOf_flo (h : lo ≤ 31) : (usedSlot (fieldOf names w name hi lo width)).flo.toNat = lo :=
  Nat.mod_eq_of_lt (by omega : lo < 2 ^ 5)

/-- A field of at most 26 bits shows whole on `fraw_k`. -/
theorem usedSlot_fieldOf_fraw (h : hi + 1 ≤ lo + 26) :
    (usedSlot (fieldOf names w name hi lo width)).fraw.toNat = slice w hi lo :=
  Nat.mod_eq_of_lt ((slice_lt w hi lo).trans_le (Nat.pow_le_pow_right (by decide) (by omega)))

theorem usedSlot_fieldOf_fok :
    (usedSlot (fieldOf names w name hi lo width)).fok = BitVec.ofBool (decide (slice w hi lo ≤ 31)) :=
  congrArg BitVec.ofBool (valueOk_fieldValue names name _)

/-- The slot of a slice of at most 26 bits is legal, under a table whose names begin with `$` and fit the ports. -/
theorem usedSlot_fieldOf_legal {names : RegNames} (hadm : NamesAdmissible names) (hport : NamesPortable names)
    (hlo : lo ≤ hi) (hhi : hi ≤ 31) (hwidth : hi + 1 ≤ lo + 26) :
    SlotLegal w (usedSlot (fieldOf names w name hi lo width)) := by
  obtain ⟨-, -, -, -, hdollar⟩ := hadm
  refine ⟨fieldCode_toNat_le name, ?_⟩
  rw [usedSlot_fieldOf_fhi names w name width hhi, usedSlot_fieldOf_flo names w name width (hlo.trans hhi),
    usedSlot_fieldOf_fraw names w name width hwidth, usedSlot_fieldOf_fok]
  refine ⟨hlo, rfl, ?_⟩
  by_cases hraw : slice w hi lo ≤ 31
  · have hval : (fieldOf names w name hi lo width).value = .name names[slice w hi lo] := fieldValue_of_le names name hraw
    obtain ⟨hlen, -⟩ := hport ⟨slice w hi lo, by omega⟩
    have hname := encodeName_of_dollar hlen (hdollar ⟨slice w hi lo, by omega⟩)
    rw [usedSlot_freglen_of_name hval hlen, usedSlot_freg_of_name hval]
    simpa [hraw] using hname
  · have hval : (fieldOf names w name hi lo width).value = .fieldErr name (slice w hi lo) :=
      fieldValue_of_gt names name (by omega)
    simp [hraw, usedSlot, hval, valueText, encodeName]

end Sys2Proof.Machine
end

section
/-! The outputs of a decode that an error ends are legal (R200 to R202). -/

namespace Sys2Proof.Machine

/-- A record without fields has every slot unused, so that its details decide whether its ports are legal. -/
theorem raiseError_outputsLegal {e : Error} {w : Word} (h : DetailsLegal (outputsOf (raiseError e w))) :
    OutputsLegal (outputsOf (raiseError e w)) := by
  have ⟨_, hcause, _⟩ := h
  have hn : (outputsOf (raiseError e w)).nfields = 0 := rfl
  have hstatus := hcause.mp hn
  refine ⟨h, ?_⟩
  rw [SlotsLegal, hn]
  refine ⟨?used, ?unused, ?first, ?adjacent, ?last, ?ok, ?err⟩
  case used => exact fun k hk => absurd hk (Nat.not_lt_zero _)
  case unused => exact fun k _ => outputsOf_slots_of_ge k.isLt (Nat.zero_le _)
  case first => exact absurd rfl
  case adjacent => exact fun k hk => absurd hk (Nat.not_lt_zero _)
  case last => exact fun k hk => absurd hk (Nat.succ_ne_zero _)
  case ok => exact fun h0 => absurd hstatus (by rw [h0]; decide)
  case err => exact fun h4 => absurd hstatus (by rw [h4]; decide)

/-- InvalidDigit: word 0, and a position and a digit within the numeral (R202). -/
theorem invalidDigit_detailsLegal {p d : Nat} (hp : p ≤ 19) (hd : 2 ≤ d) (hd' : d ≤ 9) :
    DetailsLegal (outputsOf (raiseError (.invalidDigit p d) 0)) := by
  have hp' : p % 32 = p := Nat.mod_eq_of_lt (by omega)
  have hd'' : d % 16 = d := Nat.mod_eq_of_lt (by omega)
  simp [DetailsLegal, outputsOf, raiseError, errorCode, statusCode, errorPos, errorDigit, errorSum, hp', hd'', hp, hd, hd']

/-- InvalidFormat records nothing (R202). -/
theorem invalidFormat_detailsLegal (w : Word) : DetailsLegal (outputsOf (raiseError .invalidFormat w)) := by
  simp [DetailsLegal, outputsOf, raiseError, errorCode, statusCode, errorPos, errorDigit, errorSum]

/-- SchemaWidthMismatch of the literal J layout records the sum 42 (R202). -/
theorem schemaWidthMismatch_detailsLegal (w : Word) :
    DetailsLegal (outputsOf (raiseError (.schemaWidthMismatch .j 42) w)) := by
  simp [DetailsLegal, outputsOf, raiseError, errorCode, statusCode, errorPos, errorDigit, errorSum]

end Sys2Proof.Machine
end

section
/-! The outputs of a decode that reaches its fields are legal (R32, R77, R175). -/

namespace Sys2Proof.Machine

/-- The status of a walked schema: OK with every field named, or FieldIndexOutOfRange with a field in error (R175). -/
theorem decodeFields_status (names : RegNames) (s : Schema) (w : Word) :
    ((outputsOf (decodeFields names s w)).status = 0 ∧
        ∀ fd ∈ (decodeFields names s w).fields, (usedSlot fd).fok = 1) ∨
      ((outputsOf (decodeFields names s w)).status = 4 ∧
        ∃ fd ∈ (decodeFields names s w).fields, (usedSlot fd).fok = 0) := by
  have hstatus : (outputsOf (decodeFields names s w)).status =
      BitVec.ofNat 3 (statusCode (fieldsStatus (decodeFields names s w).fields)) := rfl
  rw [hstatus, fieldsStatus]
  by_cases h : (decodeFields names s w).fields.all (fun fd => valueOk fd.value) = true
  · refine .inl ⟨by rw [if_pos h]; rfl, fun fd hfd => ?_⟩
    rw [usedSlot_fok, List.all_eq_true.mp h fd hfd]
    rfl
  · obtain ⟨fd, hfd, hval⟩ := List.all_eq_false.mp (Bool.eq_false_iff.mpr h)
    refine .inr ⟨by rw [if_neg h]; rfl, fd, hfd, ?_⟩
    rw [usedSlot_fok, Bool.eq_false_iff.mpr hval]
    rfl

/-- The details of a walked schema: an even number of fields, and no error detail. -/
theorem decodeFields_detailsLegal (names : RegNames) {s : Schema} (w : Word)
    (hlen : s.length = 2 ∨ s.length = 4 ∨ s.length = 6) : DetailsLegal (outputsOf (decodeFields names s w)) := by
  have hn : (outputsOf (decodeFields names s w)).nfields = BitVec.ofNat 3 s.length :=
    congrArg (BitVec.ofNat 3) (decodeFields_length names s w)
  have hstatus : (outputsOf (decodeFields names s w)).status = 0 ∨ (outputsOf (decodeFields names s w)).status = 4 :=
    (decodeFields_status names s w).imp And.left And.left
  have hpos : (outputsOf (decodeFields names s w)).badPos = 0 := rfl
  have hdigit : (outputsOf (decodeFields names s w)).badDigit = 0 := rfl
  have hsum : (outputsOf (decodeFields names s w)).schemaSum = 0 := rfl
  rw [DetailsLegal, hn, hpos, hdigit, hsum]
  obtain h | h := hstatus <;> obtain hl | hl | hl := hlen <;> simp [h, hl]

/-- Slot `k` of a walked schema carries the slice below the fields before it. -/
theorem decodeFields_slot (names : RegNames) {s : Schema} (w : Word) (hs : schemaSum s = 32) {k : Nat} (hk6 : k < 6)
    (hk : k < s.length) (hw : 1 ≤ s[k].2) :
    (outputsOf (decodeFields names s w)).slots[k] =
      usedSlot (fieldOf names w s[k].1 (31 - schemaSum (s.take k)) (32 - schemaSum (s.take (k + 1))) s[k].2) := by
  rw [outputsOf_slots_of_lt hk6 (by rwa [decodeFields_length]), decodeFields_getElem names w hs hk hw]

section WalkedSchema

variable {names : RegNames} {s : Schema} (w : Word) (hs : schemaSum s = 32) (hlen : s.length ≤ 6)
  (hw : ∀ e ∈ s, 1 ≤ e.2 ∧ e.2 ≤ 26)
include hs hlen hw

theorem decodeFields_slot_legal (hadm : NamesAdmissible names) (hport : NamesPortable names) {k : Nat}
    (hk : k < s.length) : SlotLegal w (outputsOf (decodeFields names s w)).slots[k] := by
  obtain ⟨hpos, hmax⟩ := hw s[k] (List.getElem_mem hk)
  have hsucc := schemaSum_take_succ s hk
  have hle := schemaSum_take_le s (k + 1)
  rw [decodeFields_slot names w hs (by omega) hk hpos]
  exact usedSlot_fieldOf_legal w _ _ hadm hport (by omega) (by omega) (by omega)

theorem decodeFields_slot_fhi {k : Nat} (hk : k < s.length) :
    ((outputsOf (decodeFields names s w)).slots[k]).fhi.toNat = 31 - schemaSum (s.take k) := by
  rw [decodeFields_slot names w hs (by omega) hk (hw _ (List.getElem_mem hk)).1]
  exact usedSlot_fieldOf_fhi _ _ _ _ (by omega)

theorem decodeFields_slot_flo {k : Nat} (hk : k < s.length) :
    ((outputsOf (decodeFields names s w)).slots[k]).flo.toNat = 32 - schemaSum (s.take (k + 1)) := by
  have hpos := (hw _ (List.getElem_mem hk)).1
  have hsucc := schemaSum_take_succ s hk
  rw [decodeFields_slot names w hs (by omega) hk hpos]
  exact usedSlot_fieldOf_flo _ _ _ _ (by omega)

/-- Each field ends right above the next one. -/
theorem decodeFields_slot_adjacent {k : Nat} (hk : k + 1 < s.length) :
    ((outputsOf (decodeFields names s w)).slots[k]).flo.toNat =
      ((outputsOf (decodeFields names s w)).slots[k + 1]).fhi.toNat + 1 := by
  have hpos := (hw _ (List.getElem_mem hk)).1
  have hsucc := schemaSum_take_succ s hk
  have hle := schemaSum_take_le s (k + 1 + 1)
  rw [decodeFields_slot_flo w hs hlen hw (by omega), decodeFields_slot_fhi w hs hlen hw hk]
  omega

/-- The last field ends at bit 0. -/
theorem decodeFields_slot_last {k : Nat} (hk : k + 1 = s.length) :
    ((outputsOf (decodeFields names s w)).slots[k]).flo = 0 := by
  apply BitVec.eq_of_toNat_eq
  rw [decodeFields_slot_flo w hs hlen hw (by omega), hk, List.take_length, hs]
  rfl

theorem decodeFields_slotsLegal (hadm : NamesAdmissible names) (hport : NamesPortable names) :
    SlotsLegal (outputsOf (decodeFields names s w)) := by
  have hfields := decodeFields_length names s w
  have hn : (outputsOf (decodeFields names s w)).nfields.toNat = s.length := by
    rw [outputsOf_nfields_toNat (by omega), hfields]
  have hslot {k : Nat} (hk : k < s.length) :=
    outputsOf_slots_of_lt (r := decodeFields names s w) (k := k) (by omega) (by omega)
  rw [SlotsLegal, hn]
  refine ⟨?used, ?unused, ?first, ?adjacent, ?last, ?ok, ?err⟩
  case used => exact fun k hk => decodeFields_slot_legal w hs hlen hw hadm hport hk
  case unused => exact fun k hk => outputsOf_slots_of_ge k.isLt (by omega)
  case first =>
    have hpos : 0 < s.length := List.length_pos_of_ne_nil (by rintro rfl; cases hs)
    exact fun _ => BitVec.eq_of_toNat_eq (decodeFields_slot_fhi w hs hlen hw hpos)
  case adjacent => exact fun k hk => decodeFields_slot_adjacent w hs hlen hw hk
  case last => exact fun k hk => decodeFields_slot_last w hs hlen hw hk
  case ok =>
    intro hstatus k hk
    obtain ⟨-, hall⟩ | ⟨h4, -⟩ := decodeFields_status names s w
    · rw [Fin.getElem_fin, hslot hk]
      exact hall _ (List.getElem_mem _)
    · exact absurd hstatus (by rw [h4]; decide)
  case err =>
    intro hstatus
    obtain ⟨h0, -⟩ | ⟨-, fd, hfd, hbad⟩ := decodeFields_status names s w
    · exact absurd hstatus (by rw [h0]; decide)
    · obtain ⟨k, hk, rfl⟩ := List.getElem_of_mem hfd
      rw [hfields] at hk
      exact ⟨⟨k, by omega⟩, hk, by rw [Fin.getElem_fin, hslot hk]; exact hbad⟩

end WalkedSchema

end Sys2Proof.Machine
end

section
/-! The invariant: what every decode drives is legal, and so it holds at reset and after every step. -/

namespace Sys2Proof.Machine

/-- Whatever the inputs, a decode under a fitting table drives a legal value onto the ports. -/
theorem decode_outputsLegal {names : RegNames} (hadm : NamesAdmissible names) (hport : NamesPortable names) (jl : JLayout)
    (src : Src) (mode : Mode) (fmt : Option Format) : OutputsLegal (outputsOf (decode jl names src mode fmt)) := by
  obtain ⟨e, herr, h⟩ | ⟨w, -, ⟨-, h⟩ | ⟨-, -, h⟩ | ⟨f, -, hs, h⟩⟩ := decode_cases jl names src mode fmt <;> rw [h]
  · obtain ⟨p, d, rfl, hp, hd, hd'⟩ := numberToBits_err herr
    exact raiseError_outputsLegal (invalidDigit_detailsLegal hp hd hd')
  · exact raiseError_outputsLegal (invalidFormat_detailsLegal w)
  · exact raiseError_outputsLegal (schemaWidthMismatch_detailsLegal w)
  · obtain ⟨hlen, hw⟩ := schema_shape hs
    exact ⟨decodeFields_detailsLegal names w hlen, decodeFields_slotsLegal w hs (by omega) hw hadm hport⟩

/-- Settles O41: an evaluation drives a legal record, and an operation on its own leaves the legal ports and returns none. -/
theorem stepKeepsInvariant : Obligations.StepKeepsInvariant := by
  intro s t hinv h
  obtain ⟨hadm, hport, hlegal, -⟩ := hinv
  have hret := exec_ret_ne_decode h
  obtain ⟨-, jl, mode, fmt, rfl⟩ | ⟨hi, v, rfl⟩ := exec_cases h
  · exact ⟨hadm, hport, decode_outputsLegal hadm hport jl s.src mode fmt, State.portsAgree_decoded s _⟩
  · exact ⟨hadm, hport, hlegal, State.portsAgree_of_ne_decode (hret hi)⟩

/-- Settles O42: the default table fits the ports, and the outputs at reset are those of a decode under it. -/
theorem resetMeetsInvariant : Obligations.ResetMeetsInvariant := by
  have hadm : NamesAdmissible defaultRegNames := by decide
  have hport : NamesPortable defaultRegNames := by decide
  exact ⟨hadm, hport, decode_outputsLegal hadm hport defaultJLayout 0 .binary (some .r), rfl⟩

end Sys2Proof.Machine
end

section
/-! A word presented as `zext_64(w)` in binary mode, and the fields of the word that the encoder of the layouts assembles
(R72 to R76, R79, R103, R133). -/

namespace Sys2Proof.Machine

/-- NumberToBits in binary mode keeps the low 32 bits (R100). -/
theorem numberToBitsBinary_eq (src : Src) : numberToBitsBinary src = src.setWidth 32 := by
  refine BitVec.eq_of_getLsbD_eq fun j hj => ?_
  rw [numberToBitsBinary, binaryLoop_getLsbD 64 _ _ _ src.isLt (by simp)]
  simp [hj, BitVec.testBit_toNat]

/-- A pre-built word is ingested as it is (R103). -/
theorem numberToBits_binary_setWidth (w : Word) : numberToBits .binary (w.setWidth 64) = .ok w := by
  rw [numberToBits, numberToBitsBinary_eq, BitVec.setWidth_setWidth_of_le _ (by decide), BitVec.setWidth_eq]

/-- The code of a format is that format's, never the reserved one (R78). -/
@[simp] theorem formatOfCode_formatCode (f : Format) : formatOfCode (formatCode f) = some f := by
  cases f <;> rfl

/-- A word presented in a format with a layout is walked under that format's schema (R70, R71, R103). -/
theorem step_presentWord (s : State) (w : Word) {f : Format} (hs : schemaSum (schema f s.jLayout) = 32) :
    step (s.presentWord w (formatCode f)) =
      .next ((s.presentWord w (formatCode f)).decoded (decodeFields s.regNames (schema f s.jLayout) w)) := by
  have hdecode : decode s.jLayout s.regNames (w.setWidth 64) .binary (some f) =
      decodeFields s.regNames (schema f s.jLayout) w := by
    rw [decode_of_ok _ _ _ (numberToBits_binary_setWidth w), decodeWord_of_eq _ _ hs]
  have hmode : modeOfBit 0 = .binary := rfl
  rw [State.presentWord, step_of_none (State.present_alone ..), evaluate]
  simp only [State.present_jLayout, State.present_regNames, State.present_src, State.present_mode, State.present_fmt,
    formatOfCode_formatCode, hmode, hdecode]

/-- The field count of a decode under a format with a layout shows whole on its port. -/
theorem decodeFields_nfields (names : RegNames) {f : Format} {jl : JLayout} (w : Word)
    (hs : schemaSum (schema f jl) = 32) :
    (outputsOf (decodeFields names (schema f jl) w)).nfields.toNat = (schema f jl).length := by
  obtain ⟨hlen, -⟩ := schema_shape hs
  have hfields := decodeFields_length names (schema f jl) w
  rw [outputsOf_nfields_toNat (by omega), hfields]

/-- Field values that fit their widths pack into the widths' sum (R10). -/
theorem packFields_lt {s : Schema} {vs : List Nat} (h : List.Forall₂ (fun fd v => v < 2 ^ fd.2) s vs) :
    packFields s vs < 2 ^ schemaSum s := by
  induction h with
  | nil => simp [packFields, schemaSum]
  | @cons fd v rest vs hv _ ih =>
    calc v * 2 ^ schemaSum rest + packFields rest vs
      _ < (v + 1) * 2 ^ schemaSum rest := by rw [Nat.succ_mul]; omega
      _ ≤ 2 ^ fd.2 * 2 ^ schemaSum rest := Nat.mul_le_mul_right _ hv
      _ = 2 ^ (fd.2 + schemaSum rest) := (Nat.pow_add ..).symm

/-- A walk from the widths' sum down, over a word whose low bits are packed field values, extracts those values: each
extraction takes the quotient by what the later fields occupy, and the walk goes on with the remainder. -/
theorem schemaWalkFrom_raw {w : Word} {s : Schema} {vs : List Nat}
    (h : List.Forall₂ (fun fd v => v < 2 ^ fd.2) s vs) (hs : schemaSum s ≤ 32)
    (hw : w.toNat % 2 ^ schemaSum s = packFields s vs) :
    (schemaWalkFrom w (schemaSum s) s).map (fun e => bitsToNumber e.bits) = vs := by
  induction h with
  | nil => rfl
  | @cons fd v rest vs hv hrest ih =>
    obtain ⟨name, width⟩ := fd
    have hlt := packFields_lt hrest
    have hsum : width + schemaSum rest ≤ 32 := hs
    have hpack : w.toNat % 2 ^ (width + schemaSum rest) = v * 2 ^ schemaSum rest + packFields rest vs := hw
    have hhead : w.toNat / 2 ^ schemaSum rest % 2 ^ width = v := by
      rw [← Nat.mod_mul_right_div_self, ← Nat.pow_add, Nat.add_comm, hpack, Nat.add_comm,
        Nat.add_mul_div_right _ _ (by positivity), Nat.div_eq_of_lt hlt, Nat.zero_add]
    have htail : w.toNat % 2 ^ schemaSum rest = packFields rest vs := by
      rw [← Nat.mod_mod_of_dvd _ (Nat.pow_dvd_pow 2 (Nat.le_add_left _ width)), hpack, Nat.mul_add_mod_of_lt hlt]
    simp [schemaWalkFrom, schemaSum, bitsToNumber_extractBits w _ (show width ≤ 32 by omega), hhead,
      ih (by omega) htail]

/-- The walk inverts the assembly of field values that fit, under every schema of sum 32 (R131, R133). -/
theorem rawValues_assembleWord {s : Schema} {vs : List Nat} (hs : schemaSum s = 32)
    (h : List.Forall₂ (fun fd v => v < 2 ^ fd.2) s vs) : rawValues (assembleWord s vs) s = vs := by
  have hlt := packFields_lt h
  have hwalk := schemaWalkFrom_raw (w := assembleWord s vs) h hs.le
    (by rw [assembleWord, BitVec.toNat_ofNat, ← hs, Nat.mod_mod, Nat.mod_eq_of_lt hlt])
  rwa [hs] at hwalk

/-- A raw value of at most 26 bits shows whole on `fraw_k` (R31). -/
theorem decodeFields_fraw (names : RegNames) {s : Schema} {w : Word} {k v : Nat} (hk : k < 6)
    (h : (rawValues w s)[k]? = some v) (hv : v < 2 ^ 26) :
    (outputsOf (decodeFields names s w)).slots[k].fraw.toNat = v := by
  obtain ⟨e, he, rfl⟩ := by simpa only [rawValues, List.getElem?_map, Option.map_eq_some_iff] using h
  have hfield : (decodeFields names s w).fields[k]? = some (fieldOut names e) := by
    rw [decodeFields, List.getElem?_map, he, Option.map_some]
  rw [outputsOf_slots _ _ hk, slotAt, hfield]
  exact Nat.mod_eq_of_lt hv

/-- Settles O39: the presented word is walked, the walk inverts the assembly, and every value fits its port. -/
theorem assembledWordDecodesToItsFields : Obligations.AssembledWordDecodesToItsFields := by
  intro s f vs hs hvs
  have hlen := hvs.length_eq
  obtain ⟨hcount, hwidth⟩ := schema_shape hs
  refine ⟨_, step_presentWord s _ hs, rfl, (decodeFields_nfields _ _ hs).trans hlen, fun k hk => ?_⟩
  have hks : k < (schema f s.jLayout).length := by omega
  have hfits : vs[k] < 2 ^ (schema f s.jLayout)[k].2 := hvs.get hks hk
  have hmax : (schema f s.jLayout)[k].2 ≤ 26 := (hwidth _ (List.getElem_mem hks)).2
  have hraw := decodeFields_fraw s.regNames (w := assembleWord (schema f s.jLayout) vs) (k := k) (by omega)
    (by rw [rawValues_assembleWord hs hvs, List.getElem?_eq_getElem hk])
    (hfits.trans_le (Nat.pow_le_pow_right (by decide) hmax))
  rw [State.decoded_outputs, Vector.getElem?_eq_getElem (by omega), Option.map_some, hraw, List.getElem?_eq_getElem hk]

/-- Settles O50: the walk has no check of the word, and a walked schema is OK or FieldIndexOutOfRange. -/
theorem everyWordAcceptedUnderEveryFormat : Obligations.EveryWordAcceptedUnderEveryFormat := by
  intro s w f hs
  exact ⟨_, step_presentWord s w hs, rfl, (decodeFields_status _ _ _).imp And.left And.left, decodeFields_nfields _ _ hs⟩

end Sys2Proof.Machine
end

section
/-! The control word, both ways, and what the operation it selects answers (R71, R75, R78, R83, R208). -/

namespace Sys2Proof.Machine

@[simp] theorem modeOfBit_modeBit (mode : Mode) : modeOfBit (modeBit mode) = mode := by
  cases mode <;> rfl

@[simp] theorem modeBit_modeOfBit (b : BitVec 1) : modeBit (modeOfBit b) = b := by
  revert b
  decide

/-- A control word is the one that its two parts make (R78). -/
theorem control_join (c : BitVec 3) : controlWord (controlMode c) (controlFmt c) = c := by
  revert c
  decide

/-- The control word of a mode and a format code selects the row of the two (R71, R78). -/
theorem decodeControl_controlWord (jl : JLayout) (mode : Mode) (fmt : BitVec 2) :
    decodeControl jl (controlWord (modeBit mode) fmt) = selectRow jl mode (formatOfCode fmt) := by
  obtain ⟨hmode, hfmt⟩ := control_split (modeBit mode) fmt
  rw [decodeControl, hmode, hfmt, modeOfBit_modeBit]

/-- The DECODE.J row of a layout is offered by the blocks of that layout (R75). -/
theorem offeredBy_decodeJOf (jl : JLayout) (mode : Mode) : offeredBy jl (decodeJOf mode jl) = true := by
  cases jl <;> rfl

/-- Each DECODE.J row has the control word of its mode and format J (R78). -/
theorem encode_decodeJOf (jl : JLayout) (mode : Mode) :
    encode (decodeJOf mode jl) = some (controlWord (modeBit mode) (formatCode .j)) := by
  cases jl <;> rfl

/-- A block offers every row it selects (R71, R75). -/
theorem offeredBy_selectRow (jl : JLayout) (mode : Mode) (fmt : Option Format) :
    offeredBy jl (selectRow jl mode fmt) = true := by
  cases fmt with
  | none => rfl
  | some f =>
    cases f with
    | r | i => rfl
    | j => exact offeredBy_decodeJOf jl mode

/-- The row that a mode and a format code select has the control word of the two (R78, R83). -/
theorem encode_selectRow (jl : JLayout) (mode : Mode) (fmt : BitVec 2) :
    encode (selectRow jl mode (formatOfCode fmt)) = some (controlWord (modeBit mode) fmt) := by
  have hcode : fmt = 0b00 ∨ fmt = 0b01 ∨ fmt = 0b10 ∨ fmt = 0b11 := by
    revert fmt
    decide
  obtain rfl | rfl | rfl | rfl := hcode
  · rfl
  · rfl
  · exact encode_decodeJOf jl mode
  · rfl

/-- Settles O36: a control word is its mode and its format code, and selecting a row loses neither. -/
theorem controlWordRoundTrip : Obligations.ControlWordRoundTrip := by
  intro jl
  refine ⟨fun i c hoffered hcode => ?_, fun c => ⟨offeredBy_selectRow jl _ _, ?_⟩⟩
  · cases i with
    | decodeR mode | decodeI mode | reservedFmt11 mode =>
      cases hcode
      rw [decodeControl_controlWord]
      rfl
    | decodeJ mode | decodeJCanonical26 mode | decodeJLiteral42 mode =>
      cases hcode
      rw [decodeControl_controlWord, eq_of_beq hoffered]
      rfl
    | ingestBinary | ingestBinaryLikeDecimal | bitsToNumber _ | extractField _ _ _ | resolveReg _ => cases hcode
  · rw [decodeControl, encode_selectRow, modeBit_modeOfBit, control_join]

/-- Settles O35: a step is the meaning of the fetched operation. -/
theorem stepRunsSelectedOperation : Obligations.StepRunsSelectedOperation := by
  intro s
  exact ⟨fun h => by rw [step, State.fetch_of_none h], fun i h => by rw [step, State.fetch_of_some h]⟩

/-- The decoder reads an operation from a number below 8 only, and then it is the control word's (log entry 10). -/
theorem decodeTableWord_eq_some {nbits w : Nat} {i : Instr} (h : decodeTableWord nbits w = some i) :
    nbits ≠ 0 ∧ w % 2 ^ nbits < 8 ∧ decodeControl defaultJLayout (BitVec.ofNat 3 (w % 2 ^ nbits)) = i := by
  rw [decodeTableWord] at h
  split at h
  next => cases h
  next hbits =>
    rw [decodeNumber] at h
    split at h
    next hlt => exact ⟨hbits, hlt, Option.some.inj h⟩
    next => cases h

/-- The operation fetched where a control word was placed is the one it decodes to at the default layout. -/
theorem State.fetch_placeControl (s : State) {n : Nat} (h : n < 8) :
    (s.placeControl n).fetch = decodeControl defaultJLayout (BitVec.ofNat 3 n) := by
  rw [State.placeControl, if_pos h, State.fetch_of_none rfl, control_join]

/-- Settles O38: a word that the decoder reads is below 8, so it is placed, and the next step fetches it. -/
theorem placedControlWordRuns : Obligations.PlacedControlWordRuns := by
  intro s nbits w i h
  obtain ⟨hbits, hlt, rfl⟩ := decodeTableWord_eq_some h
  rw [step, State.withFetchWord, if_neg hbits, State.fetch_placeControl s hlt]

/-- A byte with a bit above bit 2 is no control word (log entry 10). -/
theorem decodeTableWord_byte_of_ge {w : Nat} (h : 8 ≤ w) (hw : w < 256) : decodeTableWord 8 w = none := by
  refine Option.eq_none_iff_forall_ne_some.mpr fun i hi => ?_
  obtain ⟨-, hlt, -⟩ := decodeTableWord_eq_some hi
  omega

/-- Settles O37: the control words one by one, and the rejected bytes by the decoder's bound. -/
theorem tabledControlWordsDecode : Obligations.TabledControlWordsDecode := by
  refine ⟨fun jl => ?rows, ?split16, ?canonical26, ?literal42, ?table, fun w => decodeTableWord_byte_of_ge⟩
  case rows => cases jl <;> decide
  case split16 | canonical26 | literal42 | table => decide

/-- An operation has a next state, or it is an extraction outside the word, which is refused by name (R130, R200, R208). -/
theorem exec_next_or_refused (i : Instr) (s : State) :
    (∃ t, exec i s = .next t) ∨
      ∃ b lo width, i = .extractField b lo width ∧ ¬FieldRangeOk lo width ∧
        exec i s = .refused (.extractOutsideWord lo width) := by
  cases i with
  | extractField b lo width =>
    by_cases hrange : FieldRangeOk lo width
    · exact .inl ⟨_, if_pos hrange⟩
    · exact .inr ⟨b, lo, width, rfl, hrange, if_neg hrange⟩
  | ingestBinary | ingestBinaryLikeDecimal | bitsToNumber _ | resolveReg _ => exact .inl ⟨_, rfl⟩
  | decodeR _ | decodeI _ | decodeJ _ | decodeJCanonical26 _ | decodeJLiteral42 _ | reservedFmt11 _ => exact .inl ⟨_, rfl⟩

/-- Settles O34: the ports select a whole evaluation, and an operation on its own is refused as an extraction only. -/
theorem everyInputHasAResult : Obligations.EveryInputHasAResult := by
  have hports : ∀ s : State, s.alone = none → ∃ t, step s = .next t := fun s h => ⟨_, step_of_none h⟩
  refine ⟨hports, fun s => ?_⟩
  cases halone : s.alone with
  | none => exact .inl (hports s halone)
  | some i =>
    rw [step, State.fetch_of_some halone]
    simpa using exec_next_or_refused i s

/-- Settles O18: the reserved code is looked at after the ingest only, and each error keeps its own details. -/
theorem reservedFormatIsInvalidFormat : Obligations.ReservedFormatIsInvalidFormat := by
  intro s mode
  refine ⟨fun w hw => ?good, fun p d hbad => ?bad, fun halone hfmt hmode => ?selected⟩
  case good =>
    rw [exec, execReservedFmt11, evaluate, decode_of_ok _ _ _ hw, decodeWord_none]
    rfl
  case bad =>
    rw [exec, execReservedFmt11, evaluate, decode_of_err _ _ _ hbad]
    rfl
  case selected =>
    rw [step_of_none halone, hfmt, hmode]
    rfl

end Sys2Proof.Machine
end

section
/-! The layouts: their sums, which of their fields can leave the register table, and the two that differ in a name only (R74,
R75, R77, R81). -/

namespace Sys2Proof.Machine

/-- Settles O49, by the model's own table of sums. -/
theorem schemaWidthsSumTo32 : Obligations.SchemaWidthsSumTo32 := schemaSum_schema

/-- A field of 5 bits or more is 32 or more exactly when one of its bits above bit 4 is set (R81). -/
theorem le_bitsToNumber_extractBits_iff (w : Word) (lo : Nat) {n : Nat} (h : n ≤ 27) :
    32 ≤ bitsToNumber (extractBits w lo (5 + n)) ↔ w.extractLsb' (lo + 5) n ≠ 0 := by
  have hhigh : bitsToNumber (extractBits w lo (5 + n)) / 32 = (w.extractLsb' (lo + 5) n).toNat := by
    rw [bitsToNumber_extractBits w lo (by omega), Nat.pow_add, Nat.mod_mul_right_div_self, BitVec.extractLsb'_toNat,
      Nat.shiftRight_eq_div_pow, Nat.pow_add, Nat.div_div_eq_div_mul]
  rw [Ne, BitVec.toNat_eq, ← hhigh, BitVec.ofNat_eq_ofNat, BitVec.toNat_ofNat, Nat.zero_mod]
  omega

/-- A field of 6 bits leaves the table exactly by its own bit 5 (R81). -/
theorem le_sixBits_iff (w : Word) (lo : Nat) :
    32 ≤ bitsToNumber (extractBits w lo 6) ↔ w.getLsbD (lo + 5) = true := by
  have hbit : w.extractLsb' (lo + 5) 1 = BitVec.ofBool (w.getLsbD (lo + 5)) := by
    refine BitVec.eq_of_getLsbD_eq fun j hj => ?_
    obtain rfl : j = 0 := by omega
    simp
  rw [le_bitsToNumber_extractBits_iff w lo (n := 1) (by decide), hbit]
  cases w.getLsbD (lo + 5) <;> decide

/-- A field of 5 bits has no bit above bit 4 (R81). -/
theorem le_fiveBits_iff (w : Word) (lo : Nat) : 32 ≤ bitsToNumber (extractBits w lo 5) ↔ False := by
  rw [le_bitsToNumber_extractBits_iff w lo (n := 0) (by decide)]
  exact iff_false_intro (not_not_intro (BitVec.eq_nil _))

/-- `offset`, and `address` under SPLIT16 (R81). -/
theorem le_low16_iff (w : Word) : 32 ≤ bitsToNumber (extractBits w 0 16) ↔ w.extractLsb' 5 11 ≠ 0 :=
  le_bitsToNumber_extractBits_iff w 0 (n := 11) (by decide)

/-- `address` under CANONICAL26 (R81). -/
theorem le_low26_iff (w : Word) : 32 ≤ bitsToNumber (extractBits w 0 26) ↔ w.extractLsb' 5 21 ≠ 0 :=
  le_bitsToNumber_extractBits_iff w 0 (n := 21) (by decide)

/-- Settles O24: the entries of each walk one by one, each by its width. -/
theorem whichFieldsLeaveTheTable : Obligations.WhichFieldsLeaveTheTable := by
  intro w f jl hs
  rw [← List.forall_iff_forall_mem]
  have hop := le_sixBits_iff w 26
  have hrs := le_fiveBits_iff w 21
  have hrt := le_fiveBits_iff w 16
  match f, jl with
  | .r, _ => exact ⟨hop, hrs, hrt, le_fiveBits_iff w 11, le_fiveBits_iff w 6, le_sixBits_iff w 0⟩
  | .i, _ => exact ⟨hop, hrs, hrt, le_low16_iff w⟩
  | .j, .split16 => exact ⟨hop, hrs, hrt, le_low16_iff w⟩
  | .j, .canonical26 => exact ⟨hop, le_low26_iff w⟩
  | .j, .literal42 => cases hs

/-- The name a field shows does not depend on what the field is called (R174). -/
theorem valueText_fieldValue (names : RegNames) (n n' : FieldName) (raw : Nat) :
    valueText (fieldValue names n raw) = valueText (fieldValue names n' raw) := by
  by_cases h : raw ≤ 31
  · rw [fieldValue_of_le names n h, fieldValue_of_le names n' h]
  · rw [fieldValue_of_gt names n (by omega), fieldValue_of_gt names n' (by omega)]
    rfl

/-- Renaming a field changes its slot's name code only. -/
theorem usedSlot_fieldOut_rename (names : RegNames) (e : WalkEntry) (n : FieldName) :
    usedSlot (fieldOut names { e with name := n }) = { usedSlot (fieldOut names e) with fname := fieldCode n } := by
  simp [usedSlot, fieldOut, valueOk_fieldValue, valueText_fieldValue names n e.name]

/-- Under SPLIT16 the walks of the I and the J schema differ in the last entry's name only (R74, R75). -/
theorem schemaWalk_splitJ (w : Word) : ∃ a b c d : WalkEntry,
    schemaWalk w (schema .i .split16) = [a, b, c, d] ∧
      schemaWalk w (schema .j .split16) = [a, b, c, { d with name := .address }] :=
  ⟨_, _, _, _, rfl, rfl⟩

/-- Settles O47: a bad ingest ends both decodes alike, and a good one walks two schemas that differ in one name. -/
theorem splitJMatchesI : Obligations.SplitJMatchesI := by
  intro names src mode
  cases hn : numberToBits mode src with
  | err e =>
    rw [decode_of_err _ _ _ hn, decode_of_err _ _ _ hn]
    exact ⟨rfl, rfl, fun _ _ => rfl, nofun⟩
  | ok w =>
    obtain ⟨a, b, c, d, hi, hj⟩ := schemaWalk_splitJ w
    rw [decode_of_ok _ _ _ hn, decode_of_ok _ _ _ hn, decodeWord_of_eq _ _ rfl, decodeWord_of_eq _ _ rfl,
      decodeFields, decodeFields, hi, hj]
    refine ⟨rfl, ?status, nofun, fun _ _ => ⟨usedSlot_fieldOut_rename names d .address, fun k hk => ?slots⟩⟩
    case status => simp [fieldsStatus, fieldOut, valueOk_fieldValue]
    case slots =>
      match k with
      | 0 | 1 | 2 | 4 | 5 => rfl
      | 3 => exact absurd rfl hk

end Sys2Proof.Machine
end

section
/-! The two ingest modes and BitsToNumber as functions of the source: the low 32 bits, the decimal digits, the unsigned value
(R100 to R105, R233). -/

namespace Sys2Proof.Machine

/-- NumberToBits in binary mode is `src[31:0]` (R100). -/
theorem numberToBits_binary (src : Src) : numberToBits .binary src = .ok (src.extractLsb' 0 32) := by
  rw [numberToBits, numberToBitsBinary_eq, BitVec.setWidth_eq_extractLsb' (by decide)]

/-- BitsToNumber is the unsigned value of the vector (R102). -/
theorem bitsToNumber_eq_toNat (b : Word) : bitsToNumber b = b.toNat := by
  rw [bitsToNumber, bitSum_eq, Nat.mod_eq_of_lt b.isLt]

/-- The loop of BitsToNumber as a sum over the indices (R102). -/
theorem bitSum_eq_sum (b : Word) (n : Nat) : bitSum b n = ∑ i ∈ Finset.range n, (b.getLsbD i).toNat * 2 ^ i := by
  induction n with
  | zero => rfl
  | succ n ih =>
    rw [bitSum, ih, Finset.sum_range_succ]
    cases b.getLsbD n <;> simp

/-- A decode of an ingested word shows that word, whatever the format (R170). -/
theorem decodeWord_word (jl : JLayout) (names : RegNames) (fmt : Option Format) (w : Word) :
    (decodeWord jl names fmt w).word = w := by
  cases fmt with
  | none => rfl
  | some f =>
    by_cases hs : schemaSum (schema f jl) = 32
    · rw [decodeWord_of_eq names w hs]
      rfl
    · rw [decodeWord_of_ne names w hs]
      rfl

/-- Settles O1, by the word that the binary loop builds. -/
theorem binaryIngestTakesLow32 : Obligations.BinaryIngestTakesLow32 := by
  intro s
  have hword := numberToBits_binary s.src
  exact ⟨hword, _, rfl, congrArg Returned.word hword⟩

/-- Settles O3: the loop adds the weighted bits, which make up the unsigned value. -/
theorem bitsToNumberIsUnsignedSum : Obligations.BitsToNumberIsUnsignedSum := by
  intro b s
  have hvalue := bitsToNumber_eq_toNat b
  exact ⟨⟨_, rfl, congrArg Returned.number hvalue⟩, bitSum_eq_sum b 32, hvalue ▸ b.isLt⟩

/-- Settles O4: mode 0 is binary mode, and every end of the decode keeps the ingested word. -/
theorem prebuiltWordIngestedUnchanged : Obligations.PrebuiltWordIngestedUnchanged := by
  intro s w fmt
  have hingest : numberToBits (modeOfBit (s.presentWord w fmt).mode) (s.presentWord w fmt).src = .ok w :=
    numberToBits_binary_setWidth w
  refine ⟨rfl, rfl, hingest, _, step_of_none rfl, ?_⟩
  rw [State.decoded_outputs, decode_of_ok _ _ _ hingest]
  exact decodeWord_word ..

/-- Settles O5: the low 32 bits as a number are the remainder modulo `2^32`. -/
theorem binaryIngestRoundTrip : Obligations.BinaryIngestRoundTrip := by
  intro v
  have hmod : bitsToNumber (v.extractLsb' 0 32) = v.toNat % 2 ^ 32 := by
    rw [bitsToNumber_eq_toNat, BitVec.extractLsb'_toNat, Nat.shiftRight_zero]
  exact ⟨_, numberToBits_binary v, hmod, fun hv => hmod.trans (Nat.mod_eq_of_lt hv)⟩

/-- Settles O48: both decodes go on with the same ingested word. -/
theorem highSourceBitsLeaveNoTrace : Obligations.HighSourceBitsLeaveNoTrace := by
  intro jl names src src' fmt hlow
  rw [decode_of_ok _ _ _ (numberToBits_binary src), decode_of_ok _ _ _ (numberToBits_binary src'), hlow]

end Sys2Proof.Machine
end

section
/-! Binary-like decimal mode, digit by digit (R101, R105). -/

namespace Sys2Proof.Machine

/-- A 64-bit number has no decimal digit at position 20 or above. -/
theorem digit_src_of_ge (src : Src) {k : Nat} (hk : 20 ≤ k) : digit src.toNat k = 0 :=
  digit_of_lt (n := 20) (by have := src.isLt; omega) hk

/-- A 64-bit number fits the fuel of the decimal loop. -/
theorem src_lt_ten_pow_fuel (src : Src) : src.toNat < 10 ^ 64 := by
  have := src.isLt
  omega

/-- A numeral of zeros and ones is ingested as the word whose bits are its digits (R101). -/
theorem numberToBits_decimal_of_digits_le_one {src : Src} (hd : ∀ i, digit src.toNat i ≤ 1) :
    ∃ w, numberToBits .binaryLikeDecimal src = .ok w ∧ ∀ j, w.getLsbD j = (digit src.toNat j == 1) := by
  obtain ⟨w, hw, hbits⟩ := decimalLoop_ok 64 _ 0 0 hd (src_lt_ten_pow_fuel src) (by simp)
  refine ⟨w, hw, fun j => ?_⟩
  by_cases hj : j < 32
  · simpa [hj] using hbits j
  · rw [BitVec.getLsbD_of_ge w j (by omega), digit_src_of_ge src (by omega)]
    rfl

/-- The least significant digit of 2 or more is the error of the ingest (R101). -/
theorem numberToBits_decimal_of_bad_digit {src : Src} {p : Nat} (hp : 2 ≤ digit src.toNat p)
    (hd : ∀ j, j < p → digit src.toNat j ≤ 1) :
    numberToBits .binaryLikeDecimal src = .err (.invalidDigit p (digit src.toNat p)) := by
  have h := decimalLoop_err 64 _ 0 p 0 hp hd (src_lt_ten_pow_fuel src)
  rwa [Nat.zero_add] at h

/-- An ingest that succeeds met no digit of 2 or more (R101). -/
theorem digit_le_one_of_numberToBits_decimal {src : Src} {w : Word} (h : numberToBits .binaryLikeDecimal src = .ok w)
    (i : Nat) : digit src.toNat i ≤ 1 := by
  induction i using Nat.strong_induction_on with
  | h i ih =>
    by_contra hi
    have hbad := numberToBits_decimal_of_bad_digit (Nat.lt_of_not_le hi) ih
    rw [h] at hbad
    cases hbad

/-- The word of a decimal ingest and the digits of its source determine each other (R101, R105). -/
theorem numberToBits_decimal_eq_ok_iff {src : Src} {w : Word} :
    numberToBits .binaryLikeDecimal src = .ok w ↔ ∀ j, digit src.toNat j = (w.getLsbD j).toNat := by
  constructor
  · intro h j
    have hd := digit_le_one_of_numberToBits_decimal h
    obtain ⟨w', hw', hbits⟩ := numberToBits_decimal_of_digits_le_one hd
    obtain rfl : w' = w := OpResult.ok.inj (hw'.symm.trans h)
    rw [hbits]
    have := hd j
    interval_cases digit src.toNat j <;> rfl
  · intro h
    obtain ⟨w', hw', hbits⟩ := numberToBits_decimal_of_digits_le_one (src := src) fun i => (h i).trans_le (Bool.toNat_le _)
    rw [hw']
    congr 1
    refine BitVec.eq_of_getLsbD_eq fun j _ => ?_
    rw [hbits, h]
    cases w.getLsbD j <;> rfl

/-- The slice `w[31:20]` is clear exactly when no bit from 20 up is set. -/
theorem extractLsb'_20_12_eq_zero_iff (w : Word) : w.extractLsb' 20 12 = 0 ↔ ∀ j, 20 ≤ j → w.getLsbD j = false := by
  constructor
  · intro h j hj
    have hbit := congrArg (BitVec.getLsbD · (j - 20)) h
    by_cases h32 : j < 32
    · simpa [show j - 20 < 12 by omega, show 20 + (j - 20) = j by omega] using hbit
    · exact BitVec.getLsbD_of_ge w j (by omega)
  · intro h
    refine BitVec.eq_of_getLsbD_eq fun j hj => ?_
    simp [hj, h (20 + j) (by omega)]

/-- A decimal ingest reaches no bit above 19 (R105). -/
theorem numberToBits_decimal_high_clear {src : Src} {w : Word} (h : numberToBits .binaryLikeDecimal src = .ok w) :
    w.extractLsb' 20 12 = 0 := by
  refine (extractLsb'_20_12_eq_zero_iff w).mpr fun j hj => ?_
  have hbit := numberToBits_decimal_eq_ok_iff.mp h j
  rw [digit_src_of_ge src hj] at hbit
  exact Bool.toNat_eq_zero.mp hbit.symm

/-- Settles O2: the loop either reads every digit as a bit or stops at the least significant bad one. -/
theorem decimalIngestReadsDigits : Obligations.DecimalIngestReadsDigits := by
  intro s
  refine ⟨fun hd => ?good, fun p hp hd => ?bad⟩
  case good =>
    obtain ⟨w, hw, hbits⟩ := numberToBits_decimal_of_digits_le_one hd
    exact ⟨w, _, rfl, congrArg Returned.word hw, fun i _ => hbits i, numberToBits_decimal_high_clear hw⟩
  case bad =>
    have herr := numberToBits_decimal_of_bad_digit hp hd
    have hpos : p ≤ 19 := by
      by_contra hp19
      rw [digit_src_of_ge s.src (by omega)] at hp
      omega
    refine ⟨hpos, ⟨_, rfl, congrArg Returned.word herr⟩, fun jl fmt => ?_⟩
    rw [decode_of_err _ _ _ herr]
    rfl

/-- A sum of digits by their powers of ten has these digits. -/
theorem digit_sum {b : Nat → Nat} (hb : ∀ i, b i ≤ 9) (n j : Nat) :
    digit (∑ i ∈ Finset.range n, b i * 10 ^ i) j = if j < n then b j else 0 := by
  induction n generalizing b j with
  | zero => simp [digit]
  | succ n ih =>
    have hsplit : ∑ i ∈ Finset.range (n + 1), b i * 10 ^ i =
        10 * (∑ i ∈ Finset.range n, b (i + 1) * 10 ^ i) + b 0 := by
      rw [Finset.sum_range_succ', Finset.mul_sum]
      simp [pow_succ, mul_comm, mul_left_comm]
    have h0 := hb 0
    rw [hsplit]
    cases j with
    | zero =>
      rw [digit_zero, if_pos n.succ_pos]
      omega
    | succ j =>
      rw [← digit_succ, Nat.mul_add_div (by decide), Nat.div_eq_of_lt (by omega), Nat.add_zero, ih fun i => hb (i + 1)]
      simp

/-- The low digits of a number by their powers of ten make up its remainder. -/
theorem sum_digit (v n : Nat) : ∑ i ∈ Finset.range n, digit v i * 10 ^ i = v % 10 ^ n := by
  induction n with
  | zero => simp [Nat.mod_one]
  | succ n ih => rw [Finset.sum_range_succ, ih, Nat.mod_pow_succ, digit, mul_comm]

/-- The source of a decimal ingest is the numeral that its word spells (R105). -/
theorem toNat_eq_sum_of_numberToBits_decimal {src : Src} {w : Word} (h : numberToBits .binaryLikeDecimal src = .ok w) :
    src.toNat = ∑ i ∈ Finset.range 20, (w.getLsbD i).toNat * 10 ^ i := by
  have hsrc := src.isLt
  calc src.toNat = src.toNat % 10 ^ 20 := (Nat.mod_eq_of_lt (by omega)).symm
    _ = ∑ i ∈ Finset.range 20, digit src.toNat i * 10 ^ i := (sum_digit _ _).symm
    _ = _ := by simp only [numberToBits_decimal_eq_ok_iff.mp h]

/-- A numeral of 20 zeros and ones fits the source: the largest is `11111111111111111111` (R105). -/
theorem sum_bits_lt (w : Word) : ∑ i ∈ Finset.range 20, (w.getLsbD i).toNat * 10 ^ i < 2 ^ 64 := by
  calc _ ≤ ∑ i ∈ Finset.range 20, 1 * 10 ^ i :=
        Finset.sum_le_sum fun i _ => Nat.mul_le_mul_right _ (Bool.toNat_le _)
    _ < 2 ^ 64 := by decide

/-- Settles O6: the source that reaches a word is the numeral of its bits, which a 64-bit source holds. -/
theorem decimalIngestReach : Obligations.DecimalIngestReach := by
  refine ⟨fun src w => numberToBits_decimal_high_clear, fun w hhigh => ?_⟩
  have hsrc := BitVec.toNat_ofNatLT _ (sum_bits_lt w)
  refine ⟨BitVec.ofNatLT _ (sum_bits_lt w), ?reached, hsrc, fun src' h => ?unique⟩
  case reached =>
    refine numberToBits_decimal_eq_ok_iff.mpr fun j => ?_
    rw [hsrc, digit_sum fun i => (Bool.toNat_le _).trans (by decide)]
    split
    · rfl
    next hj => rw [(extractLsb'_20_12_eq_zero_iff w).mp hhigh j (Nat.le_of_not_lt hj), Bool.toNat_false]
  case unique => exact BitVec.eq_of_toNat_eq ((toNat_eq_sum_of_numberToBits_decimal h).trans hsrc.symm)

end Sys2Proof.Machine
end

section
/-! Extraction and the schema walk: each entry's range lies in the word and its bits are that slice (R72, R130, R131, R134). -/

namespace Sys2Proof.Machine

/-- ExtractField is the slice, zero-extended (R130). -/
theorem extractBits_eq_setWidth (b : Word) (lo width : Nat) :
    extractBits b lo width = (b.extractLsb' lo width).setWidth 32 := by
  refine BitVec.eq_of_getLsbD_eq fun j hj => ?_
  rw [extractBits_getLsbD]
  simp [hj]

/-- An entry of a walk of sum 32 has its width from the schema, lies in the word, and has the bits of its range (R131). -/
theorem mem_schemaWalk {w : Word} {s : Schema} (hs : schemaSum s = 32) {e : WalkEntry} (he : e ∈ schemaWalk w s) :
    (e.name, e.width) ∈ s ∧ e.lo + e.width ≤ 32 ∧ e.hi = e.lo + e.width - 1 ∧ e.bits = extractBits w e.lo e.width := by
  obtain ⟨k, hk, rfl⟩ := List.getElem_of_mem he
  have hks : k < s.length := by simpa [schemaWalk] using hk
  have hentry : (schemaWalk w s)[k] = _ := schemaWalkFrom_getElem w hs.le hks
  have hsucc := schemaSum_take_succ s hks
  have hle := schemaSum_take_le s (k + 1)
  rw [hentry]
  refine ⟨List.getElem_mem hks, ?_, ?_, rfl⟩ <;> dsimp only <;> omega

/-- Settles O7: the loop builds the slice, and a built-in schema of sum 32 has no field of width 0. -/
theorem extractFieldTakesSlice : Obligations.ExtractFieldTakesSlice := by
  intro b lo width s
  refine ⟨fun hwidth hlo => ?inside, fun hout => ?outside, fun f jl hs e he => ?walk⟩
  case inside => exact ⟨_, if_pos ⟨hwidth, hlo⟩, congrArg Returned.bits (extractBits_eq_setWidth b lo width)⟩
  case outside => exact if_neg (by omega)
  case walk =>
    obtain ⟨hmem, hlo, -, hbits⟩ := mem_schemaWalk hs he
    obtain ⟨-, hwidth⟩ := schema_shape hs
    exact ⟨(hwidth _ hmem).1, hlo, hbits.trans (extractBits_eq_setWidth b e.lo e.width)⟩

/-- Settles O8, by the walk's entry at each position. -/
theorem schemaWalkRanges : Obligations.SchemaWalkRanges := by
  intro w s hs
  refine ⟨schemaWalkFrom_length w 32 s, fun k hk => ?_⟩
  rw [schemaWalk, List.getElem?_eq_getElem (by simpa using hk), schemaWalkFrom_getElem w hs.le hk]

/-- Settles O11: an entry's bits are the word's, shifted down by `lo` and cut to the width, which is `hi + 1 - lo`. -/
theorem rawValueIsUnsignedSlice : Obligations.RawValueIsUnsignedSlice := by
  intro w s hs e he hwidth
  obtain ⟨-, hlo, hhi, hbits⟩ := mem_schemaWalk hs he
  have hspan : e.hi + 1 - e.lo = e.width := by omega
  have hraw : bitsToNumber e.bits = slice w e.hi e.lo := by
    rw [hbits, bitsToNumber_extractBits w e.lo (by omega), slice, hspan]
  have hlt := slice_lt w e.hi e.lo
  rw [hspan] at hlt
  exact ⟨hraw, hraw ▸ Nat.le_sub_one_of_lt hlt⟩

end Sys2Proof.Machine
end

section
/-! The schema width check in a decode: which inputs reach its error (R132). -/

namespace Sys2Proof.Machine

/-- The literal J layout fails the check for every ingested word (R132). -/
theorem decode_literal42 (names : RegNames) {src : Src} {mode : Mode} {w : Word} (h : numberToBits mode src = .ok w) :
    decode .literal42 names src mode (some .j) = raiseError (.schemaWidthMismatch .j 42) w := by
  rw [decode_of_ok _ _ _ h]
  exact decodeWord_of_ne names w (by decide)

/-- A decode that reached its fields has no error of the whole evaluation (R175). -/
theorem fieldsStatus_ne_schemaWidthMismatch (fields : List FieldOut) : fieldsStatus fields ≠ .schemaWidthMismatch := by
  rw [fieldsStatus]
  split <;> nofun

/-- Only the literal J layout, after a good ingest, ends in SchemaWidthMismatch (R132). -/
theorem literal42_of_status {jl : JLayout} {names : RegNames} {src : Src} {mode : Mode} {fmt : Option Format}
    (h : (decode jl names src mode fmt).status = .schemaWidthMismatch) :
    (∃ w, numberToBits mode src = .ok w) ∧ fmt = some .j ∧ jl = .literal42 := by
  obtain ⟨e, herr, hd⟩ | ⟨w, hw, ⟨-, hd⟩ | ⟨hfmt, hjl, -⟩ | ⟨f, -, -, hd⟩⟩ := decode_cases jl names src mode fmt
  · obtain ⟨p, d, rfl, -⟩ := numberToBits_err herr
    rw [hd] at h
    cases h
  · rw [hd] at h
    cases h
  · exact ⟨⟨w, hw⟩, hfmt, hjl⟩
  · rw [hd] at h
    exact absurd h (fieldsStatus_ne_schemaWidthMismatch _)

/-- Settles O9: the check compares the sum with 32, and the literal J layout's sum is 42. -/
theorem schemaWidthCheck : Obligations.SchemaWidthCheck := by
  refine ⟨fun f s => ⟨checkSchema_of_eq f, checkSchema_of_ne f⟩, fun jl names src mode fmt =>
    ⟨⟨literal42_of_status, ?reached⟩, fun h => ?recorded⟩⟩
  case reached =>
    rintro ⟨⟨w, hw⟩, rfl, rfl⟩
    rw [decode_literal42 names hw]
    rfl
  case recorded =>
    obtain ⟨⟨w, hw⟩, rfl, rfl⟩ := literal42_of_status h
    rw [decode_literal42 names hw]
    exact ⟨rfl, rfl⟩

end Sys2Proof.Machine
end

section
/-! The walk and the assembly invert each other: extraction loses nothing (R131, R133). -/

namespace Sys2Proof.Machine

/-- The raw values of a walk from the widths' sum down, packed: each is weighted by what the later fields occupy, which is
two to its entry's `lo` (R133). -/
theorem packFields_schemaWalkFrom (w : Word) (s : Schema) :
    packFields s ((schemaWalkFrom w (schemaSum s) s).map (fun e => bitsToNumber e.bits)) =
      ((schemaWalkFrom w (schemaSum s) s).map (fun e => bitsToNumber e.bits * 2 ^ e.lo)).sum := by
  induction s with
  | nil => rfl
  | cons f rest ih => simp [schemaWalkFrom, schemaSum, packFields, ih]

/-- The weighted raw values of a walk from the widths' sum down make up the word's bits below that sum: the first field is
the quotient by what the later ones occupy, and these make up the remainder (R133). -/
theorem schemaWalkFrom_sum {w : Word} {s : Schema} (h : schemaSum s ≤ 32) :
    ((schemaWalkFrom w (schemaSum s) s).map (fun e => bitsToNumber e.bits * 2 ^ e.lo)).sum =
      w.toNat % 2 ^ schemaSum s := by
  induction s with
  | nil => simp [schemaWalkFrom, schemaSum, Nat.mod_one]
  | cons f rest ih =>
    obtain ⟨name, width⟩ := f
    have hsum : width + schemaSum rest ≤ 32 := h
    have hsplit : w.toNat % 2 ^ (width + schemaSum rest) =
        w.toNat / 2 ^ schemaSum rest % 2 ^ width * 2 ^ schemaSum rest + w.toNat % 2 ^ schemaSum rest := by
      rw [Nat.add_comm width, Nat.pow_add, Nat.mod_mul, Nat.add_comm, Nat.mul_comm]
    simp [schemaWalkFrom, schemaSum, bitsToNumber_extractBits w _ (show width ≤ 32 by omega), ih (by omega), hsplit]

/-- The same of a whole walk: it makes up the word (R133). -/
theorem schemaWalk_sum (w : Word) {s : Schema} (hs : schemaSum s = 32) :
    ((schemaWalk w s).map (fun e => bitsToNumber e.bits * 2 ^ e.lo)).sum = w.toNat := by
  have h := schemaWalkFrom_sum (w := w) hs.le
  rwa [hs, Nat.mod_eq_of_lt w.isLt] at h

/-- The assembly inverts the walk, under every schema of sum 32 (R133). -/
theorem assembleWord_rawValues (w : Word) {s : Schema} (hs : schemaSum s = 32) : assembleWord s (rawValues w s) = w := by
  have hpack := packFields_schemaWalkFrom w s
  rw [hs] at hpack
  rw [assembleWord, rawValues, schemaWalk, hpack, ← schemaWalk, schemaWalk_sum w hs, BitVec.ofNat_toNat, BitVec.setWidth_eq]

/-- Settles O10: the packed raw values and their weighted sum are one number, the word's. -/
theorem extractionIsLosslessPartition : Obligations.ExtractionIsLosslessPartition := by
  intro w s hs
  exact ⟨assembleWord_rawValues w hs, (bitsToNumber_eq_toNat w).trans (schemaWalk_sum w hs).symm⟩

/-- Settles O40, by the induction over the schema that `schemaWalkFrom_raw` makes. -/
theorem walkInvertsAssembly : Obligations.WalkInvertsAssembly := by
  intro s vs hs hvs
  exact rawValues_assembleWord hs hvs

end Sys2Proof.Machine
end

section
/-! The resolver on its own: a read of the table that has a result for every index (R24, R150 to R152). -/

namespace Sys2Proof.Machine

/-- RESOLVE_REG returns the resolver's answer and does nothing else (R150, R152). -/
theorem exec_resolveReg (i : BitVec 26) (s : State) :
    exec (.resolveReg i) s = .next (s.returning (.regName (resolveRegisterName s.regNames i.toNat))) := rfl

/-- An index in the table resolves to a name exactly when that name is its entry (R150). -/
theorem resolveRegisterName_eq_ok_iff {names : RegNames} {i : Nat} (hi : i ≤ 31) {name : Text} :
    resolveRegisterName names i = .ok name ↔ names[i]'(Nat.lt_succ_of_le hi) = name := by
  rw [resolveRegisterName_of_le names hi, OpResult.ok.injEq]

/-- The results at 0 to 31 are the table, entry by entry (R150). -/
theorem map_resolveRegisterName_range (names : RegNames) :
    (List.range 32).map (resolveRegisterName names) = names.toList.map .ok := by
  refine List.ext_getElem (by simp) fun k hk _ => ?_
  have hk31 : k ≤ 31 := by simpa [Nat.lt_succ_iff] using hk
  simp [resolveRegisterName_of_le names hk31]

/-- A table with no repeated name resolves its indices injectively (R152). -/
theorem resolveRegisterName_injective {names : RegNames} (hnames : names.toList.Nodup) {i j : Nat} (hi : i ≤ 31)
    (hj : j ≤ 31) (h : resolveRegisterName names i = resolveRegisterName names j) : i = j := by
  rw [resolveRegisterName_of_le names hj, resolveRegisterName_eq_ok_iff hi] at h
  have hlen : names.toList.length = 32 := Vector.length_toList
  exact (hnames.getElem_inj_iff (hi := by omega) (hj := by omega)).mp (by simpa using h)

/-- The 32 default names are distinct (R24, R152). -/
theorem defaultRegNames_nodup : defaultRegNames.toList.Nodup := by decide

/-- Settles O12, by the resolver's two cases. -/
theorem resolverReadsTable : Obligations.ResolverReadsTable := by
  intro s i
  refine ⟨fun h => ⟨_, exec_resolveReg i s, ?inTable⟩, fun h => ⟨_, exec_resolveReg i s, ?outside⟩⟩
  case inTable => rw [State.returning_ret, resolveRegisterName_of_le s.regNames h]
  case outside => rw [State.returning_ret, resolveRegisterName_of_gt s.regNames h]

/-- Settles O13: an admissible table fixes its four entries, and the default table is R24's list. -/
theorem sourceFixedRegisterNames : Obligations.SourceFixedRegisterNames := by
  refine ⟨fun names hadm => ?fixed, ?default⟩
  case fixed =>
    obtain ⟨h0, h8, h14, h31, -⟩ := hadm
    exact ⟨(resolveRegisterName_eq_ok_iff (by decide)).mpr h0, (resolveRegisterName_eq_ok_iff (by decide)).mpr h31,
      (resolveRegisterName_eq_ok_iff (by decide)).mpr h8, (resolveRegisterName_eq_ok_iff (by decide)).mpr h14⟩
  case default =>
    rw [map_resolveRegisterName_range]
    rfl

/-- Settles O14: the returned value is all that changes, and no two default names are equal. -/
theorem resolverPureAndInjective : Obligations.ResolverPureAndInjective := by
  refine ⟨fun s t i h => ⟨?frame, exec_repeat h⟩, fun i j => resolveRegisterName_injective defaultRegNames_nodup⟩
  case frame =>
    rw [exec_resolveReg] at h
    obtain rfl := Host.Outcome.next.inj h
    rw [State.returning_ret]

end Sys2Proof.Machine
end

section
/-! What a decode's record is, written out: its two kinds of end, and its fields and status under each layout (R170 to R176). -/

namespace Sys2Proof.Machine

/-- A failed ingest is InvalidDigit, in binary-like decimal mode (R101). -/
theorem badIngest {mode : Mode} {src : Src} {e : Error} (h : numberToBits mode src = .err e) :
    mode = .binaryLikeDecimal ∧ ∃ p d, e = .invalidDigit p d := by
  obtain ⟨p, d, he, -⟩ := numberToBits_err h
  exact ⟨numberToBits_err_mode h, p, d, he⟩

/-- A decode that reached its fields is OK or FieldIndexOutOfRange (R175). -/
theorem fieldsStatus_ok_or_outOfRange (fields : List FieldOut) :
    fieldsStatus fields = .ok ∨ fieldsStatus fields = .fieldIndexOutOfRange := by
  rw [fieldsStatus]
  split
  · exact .inl rfl
  · exact .inr rfl

/-- A decode either ends in an error of the whole evaluation, without fields, or walks its format's schema (R170, R200). -/
theorem decode_error_or_walk (jl : JLayout) (names : RegNames) (src : Src) (mode : Mode) (fmt : Option Format) :
    ((decode jl names src mode fmt).fields = [] ∧ (decode jl names src mode fmt).status ≠ .ok ∧
        (decode jl names src mode fmt).status ≠ .fieldIndexOutOfRange) ∨
      ∃ f w, fmt = some f ∧ schemaSum (schema f jl) = 32 ∧
        decode jl names src mode fmt = decodeFields names (schema f jl) w := by
  obtain ⟨e, he, h⟩ | ⟨w, -, ⟨-, h⟩ | ⟨-, -, h⟩ | ⟨f, hfmt, hs, h⟩⟩ := decode_cases jl names src mode fmt
  · obtain ⟨-, p, d, rfl⟩ := badIngest he
    exact .inl (h ▸ ⟨rfl, nofun, nofun⟩)
  · exact .inl (h ▸ ⟨rfl, nofun, nofun⟩)
  · exact .inl (h ▸ ⟨rfl, nofun, nofun⟩)
  · exact .inr ⟨f, w, hfmt, hs, h⟩

/-- A good ingest under a schema of sum 32 is walked (R170). -/
theorem decode_of_walk {jl : JLayout} (names : RegNames) {src : Src} {mode : Mode} {f : Format} {w : Word}
    (h : numberToBits mode src = .ok w) (hs : schemaSum (schema f jl) = 32) :
    decode jl names src mode (some f) = decodeFields names (schema f jl) w := by
  rw [decode_of_ok _ _ _ h, decodeWord_of_eq names w hs]

/-- An evaluation whose decode is known drives that record. -/
theorem evaluate_of_decode {jl : JLayout} {mode : Mode} {fmt : Option Format} {s : State} {r : DecodeResult}
    (h : decode jl s.regNames s.src mode fmt = r) : evaluate jl mode fmt s = .next (s.decoded r) := by
  rw [evaluate, h]

/-- An evaluation whose ingest fails drives the error's record, whatever the format (R203). -/
theorem evaluate_of_err {jl : JLayout} {mode : Mode} {fmt : Option Format} {s : State} {e : Error}
    (h : numberToBits mode s.src = .err e) : evaluate jl mode fmt s = .next (s.decoded (raiseError e 0)) :=
  evaluate_of_decode (decode_of_err _ _ _ h)

/-- The raw values of the record are the walk's (R131). -/
theorem decodeFields_raws (names : RegNames) (s : Schema) (w : Word) :
    (decodeFields names s w).fields.map (fun fd => fd.raw) = rawValues w s :=
  List.map_map

/-- The names of a walk are the schema's, in order (R131). -/
theorem schemaWalkFrom_names (w : Word) (offset : Nat) (s : Schema) :
    (schemaWalkFrom w offset s).map (fun e => e.name) = s.map Prod.fst := by
  induction s generalizing offset with
  | nil => rfl
  | cons f rest ih => simp [schemaWalkFrom, ih]

/-- The names of the record are the schema's, in order (R176). -/
theorem decodeFields_names (names : RegNames) (s : Schema) (w : Word) :
    (decodeFields names s w).fields.map (fun fd => fd.name) = s.map Prod.fst :=
  List.map_map.trans (schemaWalkFrom_names w 32 s)

/-- A walked schema has an error in it exactly when a raw value leaves the table (R174, R175). -/
theorem decodeFields_status_of_iff (names : RegNames) {s : Schema} {w : Word} {p : Prop} [Decidable p]
    (hp : (∃ v ∈ rawValues w s, 32 ≤ v) ↔ p) :
    (decodeFields names s w).status = if p then .fieldIndexOutOfRange else .ok := by
  have hall : (decodeFields names s w).fields.all (fun fd => valueOk fd.value) = true ↔ ¬p := by
    rw [← hp]
    simp [decodeFields, rawValues, fieldOut, valueOk_fieldValue, Nat.lt_succ_iff]
  have hstatus : (decodeFields names s w).status = fieldsStatus (decodeFields names s w).fields := rfl
  rw [hstatus, fieldsStatus]
  by_cases h : p
  · rw [if_neg (fun hok => hall.mp hok h), if_pos h]
  · rw [if_pos (hall.mpr h), if_neg h]

/-- The record of a walked schema, from its fields and from what puts one of them in error. -/
theorem decodeFields_eq {names : RegNames} {s : Schema} {w : Word} {fields : List FieldOut} {p : Prop} [Decidable p]
    (hfields : (schemaWalk w s).map (fieldOut names) = fields) (hp : (∃ v ∈ rawValues w s, 32 ≤ v) ↔ p) :
    decodeFields names s w =
      { status := if p then .fieldIndexOutOfRange else .ok, word := w, fields := fields,
        badPos := 0, badDigit := 0, schemaSum := 0 } := by
  rw [← decodeFields_status_of_iff names hp, ← hfields]
  rfl

/-- An extraction of the walk as a field written out: its bits are the slice from `hi` to `lo` (R131, R134). -/
theorem fieldOut_eq_fieldOf (names : RegNames) (w : Word) (name : FieldName) (hi lo width : Nat)
    (hhi : hi + 1 = lo + width) (hwidth : width ≤ 32) :
    fieldOut names { name := name, hi := hi, lo := lo, width := width, bits := extractBits w lo width } =
      fieldOf names w name hi lo width := by
  have hspan : hi + 1 - lo = width := by omega
  simp only [fieldOut, fieldOf, bitsToNumber_extractBits w lo hwidth, slice, hspan]

/-- The record of an R decode (R171). -/
theorem decodeFields_r (names : RegNames) (jl : JLayout) (w : Word) :
    decodeFields names (schema .r jl) w =
      { status := if w.getLsbD 31 || w.getLsbD 5 then .fieldIndexOutOfRange else .ok, word := w,
        fields := [fieldOf names w .op 31 26 6, fieldOf names w .rs 25 21 5, fieldOf names w .rt 20 16 5,
                   fieldOf names w .rd 15 11 5, fieldOf names w .shamt 10 6 5, fieldOf names w .funct 5 0 6],
        badPos := 0, badDigit := 0, schemaSum := 0 } := by
  refine decodeFields_eq ?fields ?status
  case fields => simp [schema, schemaWalk, schemaWalkFrom, fieldOut_eq_fieldOf]
  case status => simp [schema, rawValues, schemaWalk, schemaWalkFrom, le_sixBits_iff, le_fiveBits_iff]

/-- The record of an I decode (R172). -/
theorem decodeFields_i (names : RegNames) (jl : JLayout) (w : Word) :
    decodeFields names (schema .i jl) w =
      { status := if w.getLsbD 31 = true ∨ w.extractLsb' 5 11 ≠ 0 then .fieldIndexOutOfRange else .ok, word := w,
        fields := [fieldOf names w .op 31 26 6, fieldOf names w .rs 25 21 5, fieldOf names w .rt 20 16 5,
                   fieldOf names w .offset 15 0 16],
        badPos := 0, badDigit := 0, schemaSum := 0 } := by
  refine decodeFields_eq ?fields ?status
  case fields => simp [schema, schemaWalk, schemaWalkFrom, fieldOut_eq_fieldOf]
  case status => simp [schema, rawValues, schemaWalk, schemaWalkFrom, le_sixBits_iff, le_fiveBits_iff, le_low16_iff]

/-- The record of a J decode under SPLIT16 (R173). -/
theorem decodeFields_jSplit16 (names : RegNames) (w : Word) :
    decodeFields names (schema .j .split16) w =
      { status := if w.getLsbD 31 = true ∨ w.extractLsb' 5 11 ≠ 0 then .fieldIndexOutOfRange else .ok, word := w,
        fields := [fieldOf names w .op 31 26 6, fieldOf names w .rs 25 21 5, fieldOf names w .rt 20 16 5,
                   fieldOf names w .address 15 0 16],
        badPos := 0, badDigit := 0, schemaSum := 0 } := by
  refine decodeFields_eq ?fields ?status
  case fields => simp [schema, schemaWalk, schemaWalkFrom, fieldOut_eq_fieldOf]
  case status => simp [schema, rawValues, schemaWalk, schemaWalkFrom, le_sixBits_iff, le_fiveBits_iff, le_low16_iff]

/-- The record of a J decode under CANONICAL26 (R173). -/
theorem decodeFields_jCanonical26 (names : RegNames) (w : Word) :
    decodeFields names (schema .j .canonical26) w =
      { status := if w.getLsbD 31 = true ∨ w.extractLsb' 5 21 ≠ 0 then .fieldIndexOutOfRange else .ok, word := w,
        fields := [fieldOf names w .op 31 26 6, fieldOf names w .address 25 0 26],
        badPos := 0, badDigit := 0, schemaSum := 0 } := by
  refine decodeFields_eq ?fields ?status
  case fields => simp [schema, schemaWalk, schemaWalkFrom, fieldOut_eq_fieldOf]
  case status => simp [schema, rawValues, schemaWalk, schemaWalkFrom, le_sixBits_iff, le_low26_iff]

/-- Settles O15, by the record of the R schema. -/
theorem decodeRFields : Obligations.DecodeRFields := by
  intro s mode
  refine ⟨fun w hw => ?good, fun e he => ?bad⟩
  case good =>
    refine evaluate_of_decode ?_
    rw [decode_of_walk _ hw rfl, decodeFields_r]
  case bad =>
    obtain ⟨hmode, p, d, hdigit⟩ := badIngest he
    exact ⟨hmode, p, d, hdigit, evaluate_of_err he⟩

/-- Settles O16, by the record of the I schema. -/
theorem decodeIFields : Obligations.DecodeIFields := by
  intro s mode
  refine ⟨fun w hw => ?good, fun e he => ?bad⟩
  case good =>
    refine evaluate_of_decode ?_
    rw [decode_of_walk _ hw rfl, decodeFields_i]
  case bad =>
    obtain ⟨hmode, p, d, hdigit⟩ := badIngest he
    exact ⟨hmode, p, d, hdigit, evaluate_of_err he⟩

/-- Settles O17: each row walks its own layout's schema, and the literal layout's fails the width check. -/
theorem decodeJFieldsPerLayout : Obligations.DecodeJFieldsPerLayout := by
  intro s mode
  refine ⟨fun w hw => ⟨evaluate_of_decode ?split16, evaluate_of_decode ?canonical26, evaluate_of_decode ?literal42⟩,
    fun e he => ?bad⟩
  case split16 => rw [decode_of_walk _ hw rfl, decodeFields_jSplit16]
  case canonical26 => rw [decode_of_walk _ hw rfl, decodeFields_jCanonical26]
  case literal42 => exact decode_literal42 _ hw
  case bad =>
    obtain ⟨hmode, p, d, hdigit⟩ := badIngest he
    exact ⟨hmode, p, d, hdigit, evaluate_of_err he, evaluate_of_err he, evaluate_of_err he⟩

/-- Settles O52: the control ports select the J decode of the block's own layout. -/
theorem jEvaluationPerLayout : Obligations.JEvaluationPerLayout := by
  intro s halone hfmt
  have hj : formatOfCode s.fmt = some .j := by rw [hfmt]; rfl
  rw [step_of_none halone, hj]
  refine ⟨fun w hw => evaluate_of_decode ?good, fun e he => ?bad⟩
  case good =>
    cases s.jLayout with
    | split16 => rw [decode_of_walk _ hw rfl, decodeFields_jSplit16]
    | canonical26 => rw [decode_of_walk _ hw rfl, decodeFields_jCanonical26]
    | literal42 => exact decode_literal42 _ hw
  case bad =>
    obtain ⟨hmode, p, d, rfl⟩ := badIngest he
    have hbit := modeBit_modeOfBit s.mode
    rw [hmode] at hbit
    exact ⟨hbit.symm, p, d, rfl, evaluate_of_err he⟩

end Sys2Proof.Machine
end

section
/-! The fields of a decode whatever the layout: values by raw values, their count and order, and the decode as a function of its
inputs (R174 to R178). -/

namespace Sys2Proof.Machine

/-- Every field of a decode has the value of its raw value (R174). -/
theorem decode_field_value {jl : JLayout} {names : RegNames} {src : Src} {mode : Mode} {fmt : Option Format} {fd : FieldOut}
    (h : fd ∈ (decode jl names src mode fmt).fields) : fd.value = fieldValue names fd.name fd.raw := by
  obtain ⟨hnil, -⟩ | ⟨f, w, -, -, hwalk⟩ := decode_error_or_walk jl names src mode fmt
  · rw [hnil] at h
    cases h
  · rw [hwalk] at h
    obtain ⟨-, -, -, -, hval⟩ := mem_decodeFields h
    exact hval

/-- A field's value is its error exactly when its raw value leaves the table (R174). -/
theorem fieldValue_eq_fieldErr_iff (names : RegNames) (name : FieldName) (raw : Nat) :
    fieldValue names name raw = .fieldErr name raw ↔ 32 ≤ raw := by
  by_cases h : raw ≤ 31
  · rw [fieldValue_of_le names name h]
    exact iff_of_false nofun (by omega)
  · exact iff_of_true (fieldValue_of_gt names name (by omega)) (by omega)

/-- Settles O20, by the value of the raw value on each side of the table's end. -/
theorem fieldValueByRawValue : Obligations.FieldValueByRawValue := by
  intro jl names src mode fmt fd hfd
  rw [decode_field_value hfd]
  exact ⟨fun h => fieldValue_of_le names fd.name h, fun h => fieldValue_of_gt names fd.name h⟩

/-- A raw value of a built-in schema of sum 32 has at most 26 bits (R31, R134). -/
theorem rawValues_lt {f : Format} {jl : JLayout} {w : Word} {v : Nat} (hs : schemaSum (schema f jl) = 32)
    (h : v ∈ rawValues w (schema f jl)) : v < 2 ^ 26 := by
  obtain ⟨e, he, rfl⟩ := List.mem_map.mp h
  obtain ⟨hmem, hlo, -, hbits⟩ := mem_schemaWalk hs he
  obtain ⟨-, hwidth⟩ := schema_shape hs
  rw [hbits, bitsToNumber_extractBits w _ (by omega)]
  exact (Nat.mod_lt _ (by positivity)).trans_le (Nat.pow_le_pow_right (by decide) (hwidth _ hmem).2)

/-- A walked schema is FieldIndexOutOfRange exactly when one of its fields has the error (R175). -/
theorem decodeFields_outOfRange_iff (names : RegNames) (s : Schema) (w : Word) :
    (decodeFields names s w).status = .fieldIndexOutOfRange ↔
      ∃ fd ∈ (decodeFields names s w).fields, fd.value = .fieldErr fd.name fd.raw := by
  have herr : (∃ v ∈ rawValues w s, 32 ≤ v) ↔
      ∃ fd ∈ (decodeFields names s w).fields, fd.value = .fieldErr fd.name fd.raw := by
    simp [rawValues, decodeFields, fieldOut, fieldValue_eq_fieldErr_iff]
  rw [← herr, decodeFields_status_of_iff names Iff.rfl]
  split
  next h => exact iff_of_true rfl h
  next h => exact iff_of_false nofun h

/-- Settles O21: the walk goes through the whole schema whatever its raw values are, and each value fits its port. -/
theorem outOfRangeFieldDoesNotStop : Obligations.OutOfRangeFieldDoesNotStop := by
  intro jl names src mode f w hw hs
  refine ⟨?raws, fun fd hfd h => ?named, ?status, fun k v hv => ?port⟩
  case raws => rw [decode_of_walk names hw hs, decodeFields_raws]
  case named => rw [decode_field_value hfd, fieldValue_of_le names fd.name h]
  case status =>
    rw [decode_of_walk names hw hs]
    exact decodeFields_outOfRange_iff names _ w
  case port =>
    obtain ⟨hk, -⟩ := List.getElem?_eq_some_iff.mp hv
    obtain ⟨hlen, -⟩ := schema_shape hs
    have hraws : (rawValues w (schema f jl)).length = (schema f jl).length := by simp [rawValues, schemaWalk]
    have hk6 : k < 6 := by omega
    rw [decode_of_walk names hw hs, Vector.getElem?_eq_getElem hk6, Option.map_some,
      decodeFields_fraw names hk6 hv (rawValues_lt hs (List.mem_of_getElem? hv))]

/-- Settles O22: a decode that walked its schema has its entries, and any other has no field. -/
theorem fieldCountAndOrder : Obligations.FieldCountAndOrder := by
  intro jl names src mode fmt
  obtain ⟨hnil, hok, hrange⟩ | ⟨f, w, hfmt, hs, hwalk⟩ := decode_error_or_walk jl names src mode fmt
  · refine ⟨fun h => (h.elim hok hrange).elim, fun _ _ => ⟨hnil, ?_⟩⟩
    rw [outputsOf, hnil]
    rfl
  · rw [hwalk]
    refine ⟨fun _ => ⟨f, hfmt, decodeFields_names names _ w, ?count⟩, fun hok hrange => ?noError⟩
    case count =>
      refine (congrArg (BitVec.ofNat 3) (decodeFields_length names (schema f jl) w)).trans ?_
      match f, jl with
      | .r, _ | .i, _ | .j, .split16 | .j, .canonical26 => rfl
      | .j, .literal42 => cases hs
    case noError => exact ((fieldsStatus_ok_or_outOfRange _).elim hok hrange).elim

/-- The source 0 is ingested as the zero word in either mode (R178). -/
theorem numberToBits_zero (mode : Mode) : numberToBits mode 0 = .ok 0 := by
  cases mode <;> rfl

/-- Every extraction of the zero word is 0 (R178). -/
theorem bitsToNumber_extractBits_zero (lo width : Nat) : bitsToNumber (extractBits 0 lo width) = 0 := by
  simp [bitsToNumber_eq_toNat, extractBits_eq_setWidth]

/-- Every raw value of the zero word is 0 (R178). -/
theorem rawValues_zero {s : Schema} (hs : schemaSum s = 32) {v : Nat} (h : v ∈ rawValues 0 s) : v = 0 := by
  obtain ⟨e, he, rfl⟩ := List.mem_map.mp h
  obtain ⟨-, -, -, hbits⟩ := mem_schemaWalk hs he
  exact (congrArg bitsToNumber hbits).trans (bitsToNumber_extractBits_zero e.lo e.width)

/-- Settles O23: every raw value of the zero word is 0, which an admissible table names `$zero`. -/
theorem zeroWordIsAllZeroRegister : Obligations.ZeroWordIsAllZeroRegister := by
  intro jl names mode f hadm hlayout
  have hs : schemaSum (schema f jl) = 32 := by rw [schemaSum_schema, if_neg hlayout]
  have hraw : ∀ v ∈ rawValues 0 (schema f jl), v = 0 := fun v => rawValues_zero hs
  rw [decode_of_walk names (numberToBits_zero mode) hs]
  refine ⟨?status, decodeFields_length names _ 0, fun fd hfd => ?field⟩
  case status =>
    have hnone : (∃ v ∈ rawValues 0 (schema f jl), 32 ≤ v) ↔ False := by
      refine iff_false_intro fun ⟨v, hv, hle⟩ => ?_
      rw [hraw v hv] at hle
      omega
    rw [decodeFields_status_of_iff names hnone, if_neg id]
  case field =>
    obtain ⟨e, he, -, hbits, hval⟩ := mem_decodeFields hfd
    have hzero : fd.raw = 0 := hbits.trans (hraw _ (List.mem_map_of_mem he))
    obtain ⟨h0, -⟩ := hadm
    rw [hval, hzero, fieldValue_of_le names fd.name (Nat.zero_le 31), h0]
    exact ⟨rfl, rfl⟩

/-- Settles O31: both steps evaluate the ports, whose record is a function of the inputs and the parameters. -/
theorem outputsDependOnInputsOnly : Obligations.OutputsDependOnInputsOnly := by
  intro s s' halone hsame
  obtain ⟨hjl, hnames, hsrc, hmode, hfmt, halone'⟩ := hsame
  have hdecode : decode s'.jLayout s'.regNames s'.src (modeOfBit s'.mode) (formatOfCode s'.fmt) =
      decode s.jLayout s.regNames s.src (modeOfBit s.mode) (formatOfCode s.fmt) := by
    rw [hjl, hnames, hsrc, hmode, hfmt]
  refine ⟨_, _, step_of_none halone, step_of_none (halone'.trans halone), ?_, ?_, exec_sameInputs (step_of_none halone)⟩
  · exact congrArg outputsOf hdecode.symm
  · exact congrArg Returned.decode hdecode.symm

end Sys2Proof.Machine
end

section
/-! The external program: the configuration on the ports, and the rendering of a record (R180, R181, R201). -/

namespace Sys2Proof.Machine

/-- `NUMBER_IS_BINARY` on the `mode` port selects binary-like decimal mode exactly when it is true (R180). -/
theorem modeOfBit_ofBool (b : Bool) : modeOfBit (BitVec.ofBool b) = if b then .binaryLikeDecimal else .binary := by
  cases b <;> rfl

/-- A step of a configured block evaluates the configured number in the configured mode and format (R180). -/
theorem step_configure (s : State) (c : ExternalConfig) :
    step (s.configure c) = .next ((s.configure c).decoded (decode s.jLayout s.regNames c.number
      (if c.numberIsBinary then .binaryLikeDecimal else .binary) (some c.format))) := by
  rw [State.configure, step_of_none (State.present_alone ..), evaluate]
  simp only [State.present_jLayout, State.present_regNames, State.present_src, State.present_mode, State.present_fmt,
    formatOfCode_formatCode, modeOfBit_ofBool]

/-- Settles O46: each configuration input on its port, and the step's record is the one the external program renders. -/
theorem configurationMapsToPorts : Obligations.ConfigurationMapsToPorts := by
  intro s c
  refine ⟨rfl, ?fmt, ?mode, _, step_configure s c, rfl⟩
  case fmt =>
    rw [State.configure, State.present_fmt]
    cases c.format <;> rfl
  case mode =>
    rw [State.configure, State.present_mode]
    cases c.numberIsBinary <;> rfl

/-- A record without fields is rendered as no text (R181). -/
theorem render_text_of_nil {r : DecodeResult} (h : r.fields = []) : (render r).text = [] := by
  rw [render, h]
  rfl

/-- The text of a field's value: its entry of the table, or its raw value in decimal (R174, R181). -/
theorem renderValue_fieldValue (names : RegNames) (name : FieldName) (raw : Nat) :
    renderValue (fieldValue names name raw) = if h : raw ≤ 31 then names[raw] else Nat.toDigits 10 raw := by
  by_cases h : raw ≤ 31
  · rw [fieldValue_of_le names name h, dif_pos h, renderValue]
  · rw [fieldValue_of_gt names name (by omega), dif_neg h, renderValue]

/-- The text of a walked schema: one line per entry, from its name and its raw value (R181). -/
theorem render_decodeFields_text (names : RegNames) (s : Schema) (w : Word) :
    (render (decodeFields names s w)).text =
      (List.zipWith (fun (name : FieldName) (raw : Nat) =>
        fieldText name ++ [' '] ++ (if h : raw ≤ 31 then names[raw] else Nat.toDigits 10 raw) ++ ['\n'])
        (s.map Prod.fst) (rawValues w s)).flatten := by
  rw [← decodeFields_names names s w, ← decodeFields_raws names s w, List.zipWith_map, List.zipWith_self, render]
  refine congrArg List.flatten (List.map_congr_left fun fd hfd => ?_)
  obtain ⟨-, -, -, -, hval⟩ := mem_decodeFields hfd
  rw [renderField, hval, renderValue_fieldValue]

/-- A field resolved exactly when its value is a name (R31, R174). -/
theorem valueOk_iff (v : FieldValue) : valueOk v = true ↔ ∃ n, v = .name n := by
  cases v with
  | name n => exact iff_of_true rfl ⟨n, rfl⟩
  | fieldErr name raw => exact iff_of_false nofun nofun

/-- The exit code 0 is that of OK alone (R201). -/
theorem statusCode_eq_zero_iff (c : ResultCode) : statusCode c = 0 ↔ c = .ok := by
  cases c <;> decide

/-- Fields have the status OK exactly when each has a name (R175). -/
theorem fieldsStatus_eq_ok_iff (fields : List FieldOut) :
    fieldsStatus fields = .ok ↔ ∀ fd ∈ fields, ∃ n, fd.value = .name n := by
  simp only [← valueOk_iff, ← List.all_eq_true, fieldsStatus]
  split
  next h => exact iff_of_true rfl h
  next h => exact iff_of_false nofun h

/-- A decode is OK exactly when it has fields and each has a name (R175, R201). -/
theorem decode_ok_iff (jl : JLayout) (names : RegNames) (src : Src) (mode : Mode) (fmt : Option Format) :
    (decode jl names src mode fmt).status = .ok ↔
      (decode jl names src mode fmt).fields ≠ [] ∧
        ∀ fd ∈ (decode jl names src mode fmt).fields, ∃ n, fd.value = .name n := by
  obtain ⟨hnil, hok, -⟩ | ⟨f, w, -, hs, hwalk⟩ := decode_error_or_walk jl names src mode fmt
  · exact iff_of_false hok fun ⟨hne, _⟩ => hne hnil
  · obtain ⟨hlen, -⟩ := schema_shape hs
    have hfields : (decodeFields names (schema f jl) w).fields ≠ [] := by
      rw [← List.length_pos_iff, decodeFields_length]
      omega
    rw [hwalk, and_iff_right hfields]
    exact fieldsStatus_eq_ok_iff _

/-- A field in error has no `$` in its text: its characters are decimal digits (R181). -/
theorem dollar_notMem_renderValue (name : FieldName) (raw : Nat) : '$' ∉ renderValue (.fieldErr name raw) := by
  intro h
  have hdigit : Char.isDigit '$' = true := Nat.isDigit_of_mem_toDigits (by decide) (by decide) h
  cases hdigit

/-- The text of a field in error, read in decimal, is its raw value (R181). -/
theorem renderValue_reads_back (name : FieldName) (raw : Nat) :
    (renderValue (.fieldErr name raw)).foldl (fun a ch => a * 10 + (ch.toNat - 48)) 0 = raw := by
  have h : Nat.ofDigitChars 10 (Nat.toDigits 10 raw) 0 = raw := Nat.ofDigitChars_ten_toDigits
  simp only [Nat.ofDigitChars_eq_foldl, Nat.mul_comm 10] at h
  exact h

/-- Settles O45: each line from the schema's name and the raw value, the exit code by the status, and a decimal has no `$`, with
which every admissible name begins. -/
theorem renderingTellsErrorsFromNames : Obligations.RenderingTellsErrorsFromNames := by
  refine ⟨fun jl names c => ⟨fun w hw => ?text, fun e he => ?noText, rfl, ?exitCode⟩, fun name raw =>
    ⟨dollar_notMem_renderValue name raw, renderValue_reads_back name raw, fun names hadm i heq => ?distinct⟩⟩
  case text =>
    split
    next hs => rw [runExternal, decode_of_walk names hw hs, render_decodeFields_text]
    next hs =>
      rw [runExternal, decode_of_ok _ _ _ hw, decodeWord_of_ne names w hs]
      exact render_text_of_nil rfl
  case noText =>
    rw [runExternal, decode_of_err _ _ _ he]
    exact render_text_of_nil rfl
  case exitCode => exact (statusCode_eq_zero_iff _).trans (decode_ok_iff ..)
  case distinct =>
    obtain ⟨-, -, -, -, hdollar⟩ := hadm
    have hmem : '$' ∈ names[i] := List.mem_of_mem_head? (hdollar i)
    exact dollar_notMem_renderValue name raw (heq ▸ hmem)

end Sys2Proof.Machine
end

section
/-! The status of a decode: the first error in the order of the Decoder's steps, and the cause of each result code (R201, R203). -/

namespace Sys2Proof.Machine

/-- A failed ingest records the least significant digit of 2 or more (R101, R203). -/
theorem numberToBits_err_digit {mode : Mode} {src : Src} {e : Error} (h : numberToBits mode src = .err e) :
    ∃ p, e = .invalidDigit p (digit src.toNat p) ∧ 2 ≤ digit src.toNat p ∧ ∀ j, j < p → digit src.toNat j ≤ 1 := by
  obtain rfl := numberToBits_err_mode h
  have hbad : ∃ i, 2 ≤ digit src.toNat i := by
    by_contra! hgood
    obtain ⟨w, hw, -⟩ := numberToBits_decimal_of_digits_le_one fun i => Nat.le_of_lt_succ (hgood i)
    cases h.symm.trans hw
  have hleast : ∀ j, j < Nat.find hbad → digit src.toNat j ≤ 1 := fun j hj =>
    Nat.le_of_lt_succ (Nat.lt_of_not_le (Nat.find_min hbad hj))
  have herr := numberToBits_decimal_of_bad_digit (Nat.find_spec hbad) hleast
  exact ⟨_, OpResult.err.inj (h.symm.trans herr), Nat.find_spec hbad, hleast⟩

/-- An ingest fails exactly in binary-like decimal mode on a source with a digit of 2 or more (R100, R101). -/
theorem numberToBits_err_iff (mode : Mode) (src : Src) :
    (∃ e, numberToBits mode src = .err e) ↔ mode = .binaryLikeDecimal ∧ ∃ i, 2 ≤ digit src.toNat i := by
  constructor
  · rintro ⟨e, he⟩
    obtain ⟨p, -, hp, -⟩ := numberToBits_err_digit he
    exact ⟨numberToBits_err_mode he, p, hp⟩
  · rintro ⟨rfl, i, hi⟩
    cases hn : numberToBits .binaryLikeDecimal src with
    | err e => exact ⟨e, rfl⟩
    | ok w => exact absurd (digit_le_one_of_numberToBits_decimal hn i) (by omega)

/-- A field of a decode has its error exactly when its raw value leaves the table (R174). -/
theorem decode_field_error_iff {jl : JLayout} {names : RegNames} {src : Src} {mode : Mode} {fmt : Option Format}
    {fd : FieldOut} (h : fd ∈ (decode jl names src mode fmt).fields) :
    fd.value = .fieldErr fd.name fd.raw ↔ 32 ≤ fd.raw := by
  rw [decode_field_value h]
  exact fieldValue_eq_fieldErr_iff names fd.name fd.raw

/-- A field of a decode has a name exactly when its raw value is in the table (R174). -/
theorem decode_field_named_iff {jl : JLayout} {names : RegNames} {src : Src} {mode : Mode} {fmt : Option Format}
    {fd : FieldOut} (h : fd ∈ (decode jl names src mode fmt).fields) : (∃ n, fd.value = .name n) ↔ fd.raw ≤ 31 := by
  rw [← valueOk_iff, decode_field_value h, valueOk_fieldValue, decide_eq_true_iff]

/-- Settles O19: each error ends the decode at its own step, and only a decode that passed them all looks at its raw values. -/
theorem errorPriority : Obligations.ErrorPriority := by
  intro jl names src mode fmt
  refine ⟨?status, fun fd hfd => decode_field_error_iff hfd, fun e he => ⟨fun jl' fmt' => ?sameRecord,
    numberToBits_err_digit he⟩⟩
  case sameRecord => rw [decode_of_err _ _ _ he, decode_of_err _ _ _ he]
  case status =>
    cases hn : numberToBits mode src with
    | err e =>
      obtain ⟨-, p, d, rfl⟩ := badIngest hn
      rw [decode_of_err _ _ _ hn]
      rfl
    | ok w =>
      cases fmt with
      | none =>
        rw [decode_of_ok _ _ _ hn]
        rfl
      | some f =>
        dsimp only
        split
        next hs =>
          rw [decode_of_ok _ _ _ hn, decodeWord_of_ne names w hs]
          rfl
        next hs => rw [decode_of_walk names hn (not_not.mp hs), decodeFields_status_of_iff names Iff.rfl]

/-- The status of a walked schema is OK or FieldIndexOutOfRange, and no other code (R175). -/
theorem decodeFields_status_ne (names : RegNames) (s : Schema) (w : Word) {c : ResultCode} (hok : c ≠ .ok)
    (hrange : c ≠ .fieldIndexOutOfRange) : (decodeFields names s w).status ≠ c := by
  rintro rfl
  exact (fieldsStatus_ok_or_outOfRange _).elim hok hrange

/-- Code 1: the ingest failed (R201). -/
theorem decode_status_eq_invalidDigit_iff (jl : JLayout) (names : RegNames) (src : Src) (mode : Mode)
    (fmt : Option Format) :
    (decode jl names src mode fmt).status = .invalidDigit ↔ ∃ e, numberToBits mode src = .err e := by
  obtain ⟨e, he, h⟩ | ⟨w, hw, ⟨-, h⟩ | ⟨-, -, h⟩ | ⟨f, -, -, h⟩⟩ := decode_cases jl names src mode fmt <;> rw [h]
  · obtain ⟨-, p, d, rfl⟩ := badIngest he
    exact iff_of_true rfl ⟨_, he⟩
  all_goals rw [hw]
  · exact iff_of_false nofun nofun
  · exact iff_of_false nofun nofun
  · exact iff_of_false (decodeFields_status_ne _ _ _ nofun nofun) nofun

/-- Code 2: the reserved format code, looked at after a good ingest only (R201, R203). -/
theorem decode_status_eq_invalidFormat_iff (jl : JLayout) (names : RegNames) (src : Src) (mode : Mode)
    (fmt : Option Format) :
    (decode jl names src mode fmt).status = .invalidFormat ↔ fmt = none ∧ ∃ w, numberToBits mode src = .ok w := by
  obtain ⟨e, he, h⟩ | ⟨w, hw, ⟨rfl, h⟩ | ⟨rfl, -, h⟩ | ⟨f, rfl, -, h⟩⟩ := decode_cases jl names src mode fmt <;> rw [h]
  · obtain ⟨-, p, d, rfl⟩ := badIngest he
    rw [he]
    exact iff_of_false nofun nofun
  · exact iff_of_true rfl ⟨rfl, w, hw⟩
  · exact iff_of_false nofun nofun
  · exact iff_of_false (decodeFields_status_ne _ _ _ nofun nofun) nofun

/-- Code 3: the literal J layout after a good ingest (R132, R201). -/
theorem decode_status_eq_schemaWidthMismatch_iff (jl : JLayout) (names : RegNames) (src : Src) (mode : Mode)
    (fmt : Option Format) :
    (decode jl names src mode fmt).status = .schemaWidthMismatch ↔
      (fmt = some .j ∧ jl = .literal42) ∧ ∃ w, numberToBits mode src = .ok w := by
  constructor
  · exact fun h => (literal42_of_status h).symm
  · rintro ⟨⟨rfl, rfl⟩, w, hw⟩
    rw [decode_literal42 names hw]
    rfl

/-- Code 4: a field's raw value leaves the table (R175, R201). -/
theorem decode_status_eq_fieldIndexOutOfRange_iff (jl : JLayout) (names : RegNames) (src : Src) (mode : Mode)
    (fmt : Option Format) :
    (decode jl names src mode fmt).status = .fieldIndexOutOfRange ↔
      ∃ fd ∈ (decode jl names src mode fmt).fields, 32 ≤ fd.raw := by
  have herr : (∃ fd ∈ (decode jl names src mode fmt).fields, fd.value = .fieldErr fd.name fd.raw) ↔
      ∃ fd ∈ (decode jl names src mode fmt).fields, 32 ≤ fd.raw :=
    exists_congr fun fd => and_congr_right decode_field_error_iff
  rw [← herr]
  obtain ⟨hnil, -, hrange⟩ | ⟨f, w, -, -, hwalk⟩ := decode_error_or_walk jl names src mode fmt
  · refine iff_of_false hrange ?_
    rw [hnil]
    nofun
  · rw [hwalk]
    exact decodeFields_outOfRange_iff names _ w

/-- Code 0: there are fields, and every raw value is in the table (R175, R201). -/
theorem decode_status_eq_ok_iff (jl : JLayout) (names : RegNames) (src : Src) (mode : Mode) (fmt : Option Format) :
    (decode jl names src mode fmt).status = .ok ↔
      (decode jl names src mode fmt).fields ≠ [] ∧ ∀ fd ∈ (decode jl names src mode fmt).fields, fd.raw ≤ 31 :=
  (decode_ok_iff jl names src mode fmt).trans (and_congr_right fun _ => forall₂_congr fun _ => decode_field_named_iff)

/-- The six result codes are distinct (R201). -/
theorem statusCode_injective : Function.Injective statusCode := by
  intro a b h
  cases a <;> cases b <;> cases h <;> rfl

/-- Every result code fits the `status` port (R31, R201). -/
theorem toNat_ofNat_statusCode (c : ResultCode) : (BitVec.ofNat 3 (statusCode c)).toNat = statusCode c := by
  cases c <;> rfl

/-- The `status` port tells the result codes apart (R201). -/
theorem outputsOf_status_eq_iff (r : DecodeResult) (c : ResultCode) :
    (outputsOf r).status = BitVec.ofNat 3 (statusCode c) ↔ r.status = c := by
  rw [outputsOf, ← BitVec.toNat_inj, toNat_ofNat_statusCode, toNat_ofNat_statusCode, statusCode_injective.eq_iff]

/-- Whatever the table, the status and the details that a decode drives agree (R31, R201, R202). -/
theorem decode_detailsLegal (jl : JLayout) (names : RegNames) (src : Src) (mode : Mode) (fmt : Option Format) :
    DetailsLegal (outputsOf (decode jl names src mode fmt)) := by
  obtain ⟨e, he, h⟩ | ⟨w, -, ⟨-, h⟩ | ⟨-, -, h⟩ | ⟨f, -, hs, h⟩⟩ := decode_cases jl names src mode fmt <;> rw [h]
  · obtain ⟨p, d, rfl, hp, hd, hd'⟩ := numberToBits_err he
    exact invalidDigit_detailsLegal hp hd hd'
  · exact invalidFormat_detailsLegal w
  · exact schemaWidthMismatch_detailsLegal w
  · obtain ⟨hlen, -⟩ := schema_shape hs
    exact decodeFields_detailsLegal names w hlen

/-- Settles O27: the port tells the codes apart, and each code has its own cause. -/
theorem statusCodesAndCauses : Obligations.StatusCodesAndCauses := by
  intro jl names src mode fmt
  have hport := outputsOf_status_eq_iff (decode jl names src mode fmt)
  obtain ⟨hmax, -⟩ := decode_detailsLegal jl names src mode fmt
  refine ⟨?invalidDigit, ?invalidFormat, ?widths, ?range, ?ok, hmax, rfl⟩
  case invalidDigit =>
    exact ((hport .invalidDigit).trans (decode_status_eq_invalidDigit_iff ..)).trans (numberToBits_err_iff mode src)
  case invalidFormat => exact (hport .invalidFormat).trans (decode_status_eq_invalidFormat_iff ..)
  case widths => exact (hport .schemaWidthMismatch).trans (decode_status_eq_schemaWidthMismatch_iff ..)
  case range => exact (hport .fieldIndexOutOfRange).trans (decode_status_eq_fieldIndexOutOfRange_iff ..)
  case ok => exact (hport .ok).trans (decode_status_eq_ok_iff ..)

end Sys2Proof.Machine
end

section
/-! What each error records on the ports (R202). -/

namespace Sys2Proof.Machine

/-- The position and the digit of a failed ingest show whole on their ports, with word 0 and no field (R31, R202). -/
theorem outputsOf_invalidDigit {p d : Nat} (hp : p ≤ 19) (hd : d ≤ 9) (w : Word) :
    (outputsOf (raiseError (.invalidDigit p d) w)).badPos.toNat = p ∧
      (outputsOf (raiseError (.invalidDigit p d) w)).badDigit.toNat = d ∧
      (outputsOf (raiseError (.invalidDigit p d) w)).word = w ∧
      (outputsOf (raiseError (.invalidDigit p d) w)).nfields = 0 :=
  ⟨Nat.mod_eq_of_lt (by omega : p < 2 ^ 5), Nat.mod_eq_of_lt (by omega : d < 2 ^ 4), rfl, rfl⟩

/-- The range and the raw value of every field of a decode fit their ports (R31). -/
theorem decode_field_fits {jl : JLayout} {names : RegNames} {src : Src} {mode : Mode} {fmt : Option Format} {fd : FieldOut}
    (h : fd ∈ (decode jl names src mode fmt).fields) : fd.hi < 2 ^ 5 ∧ fd.lo < 2 ^ 5 ∧ fd.raw < 2 ^ 26 := by
  obtain ⟨hnil, -⟩ | ⟨f, w, -, hs, hwalk⟩ := decode_error_or_walk jl names src mode fmt
  · rw [hnil] at h
    cases h
  · rw [hwalk] at h
    obtain ⟨e, he, rfl, -⟩ := mem_decodeFields h
    obtain ⟨hmem, htop, hhi, -⟩ := mem_schemaWalk hs he
    obtain ⟨-, hwidth⟩ := schema_shape hs
    have hpos : 1 ≤ e.width := (hwidth _ hmem).1
    refine ⟨?_, ?_, rawValues_lt hs (List.mem_map_of_mem he)⟩ <;> dsimp only [fieldOut] <;> omega

/-- The slot of a field that fits its ports shows the field's code, range and raw value (R31, R33). -/
theorem usedSlot_shows {fd : FieldOut} (h : fd.hi < 2 ^ 5 ∧ fd.lo < 2 ^ 5 ∧ fd.raw < 2 ^ 26) :
    (usedSlot fd).fname = fieldCode fd.name ∧ (usedSlot fd).fhi.toNat = fd.hi ∧ (usedSlot fd).flo.toNat = fd.lo ∧
      (usedSlot fd).fraw.toNat = fd.raw := by
  obtain ⟨hhi, hlo, hraw⟩ := h
  exact ⟨rfl, Nat.mod_eq_of_lt hhi, Nat.mod_eq_of_lt hlo, Nat.mod_eq_of_lt hraw⟩

/-- The slot of a field in error carries no name (R202). -/
theorem usedSlot_of_fieldErr {fd : FieldOut} {name : FieldName} {raw : Nat} (h : fd.value = .fieldErr name raw) :
    (usedSlot fd).fok = 0 ∧ (usedSlot fd).freg = 0 ∧ (usedSlot fd).freglen = 0 := by
  rw [usedSlot, h]
  exact ⟨rfl, rfl, rfl⟩

/-- Settles O28: each record's details fit their ports, and a field in error stands on its own slot. -/
theorem errorRecordsOnPorts : Obligations.ErrorRecordsOnPorts := by
  intro jl names src mode fmt
  refine ⟨fun p d he => ?digit, fun w hw => ⟨?word, ?format, ?widths⟩, fun k fd hk hraw => ?field,
    fun i hi => resolveRegisterName_of_gt names hi⟩
  case digit =>
    obtain ⟨_, ⟨⟩, hbad, hleast⟩ := numberToBits_err_digit he
    obtain ⟨_, _, ⟨⟩, hpos, -, hmax⟩ := numberToBits_err he
    rw [decode_of_err _ _ _ he]
    exact ⟨rfl, hleast, hpos, hbad, hmax, outputsOf_invalidDigit hpos hmax 0⟩
  case word =>
    rw [decode_of_ok _ _ _ hw]
    exact decodeWord_word ..
  case format =>
    rintro rfl
    rw [decode_of_ok _ _ _ hw, decodeWord_none]
    rfl
  case widths =>
    rintro rfl rfl
    rw [decode_literal42 names hw]
    exact ⟨checkSchema_of_ne .j (by decide), rfl, rfl⟩
  case field =>
    have hmem := List.mem_of_getElem? hk
    have herr := (decode_field_error_iff hmem).mpr hraw
    obtain ⟨hname, hhi, hlo, hval⟩ := usedSlot_shows (decode_field_fits hmem)
    rw [Fin.getElem_fin, outputsOf_slots _ _ k.isLt, slotAt, hk]
    exact ⟨herr, hname, hhi, hlo, hval, usedSlot_of_fieldErr herr⟩

end Sys2Proof.Machine
end

section
/-! What the outputs held before an evaluation of the ports (R231). -/

namespace Sys2Proof.Machine

/-- A step of the ports reads the parameters and the inputs, and replaces the outputs whatever they hold. -/
theorem step_with_outputs {s : State} (o : Outputs) (h : s.alone = none) : step { s with outputs := o } = step s := by
  have ho : ({ s with outputs := o } : State).alone = none := h
  rw [step_of_none h, step_of_none ho]
  rfl

/-- Settles O44: a step of the ports is the same whatever the outputs hold, and the free value of a registered implementation
is one such value, left in place by the inputs presented. -/
theorem firstEvaluationReplacesHeldOutputs : Obligations.FirstEvaluationReplacesHeldOutputs := by
  unfold Obligations.FirstEvaluationReplacesHeldOutputs
  refine ⟨fun s o h => ?anyOutputs, fun src mode fmt => ?registered⟩
  case anyOutputs =>
    have hsame := step_with_outputs o h
    exact ⟨hsame, hsame ▸ step_outputs_live h⟩
  case registered =>
    have hports : (State.resetRegistered.present src mode fmt).alone = none := rfl
    exact step_outputs_live hports

end Sys2Proof.Machine
end
